-- ==== Sys2Proof/Word.lean ====
section
/-! DEFINITION. The word types of the core (spec/00_scope.md R5, R6): every register, memory byte and
instruction field is an unsigned bit vector of the width the spec gives it. -/

namespace Sys2Proof

/-- A register, timer or memory byte: 8 bits, unsigned (R6, R10). -/
abbrev Byte := BitVec 8

/-- `I`, `PC`, a stack entry or an instruction word: 16 bits, unsigned (R5, R60). -/
abbrev Word := BitVec 16

/-- A 4-bit field: a register index, a sub-selector, a sprite height, a key index (R61). -/
abbrev Nibble := BitVec 4

/-- The 12-bit absolute address field `nnn` (R61). -/
abbrev Addr12 := BitVec 12

end Sys2Proof
end

