-- ==== Sys2Proof/Config.lean ====
section
/-! DEFINITION. What an implementation fixes and what the spec leaves free: the three parameters of
spec/00_scope.md R5, and the two inputs of a Step (60_exceptions.md R224, R225) as free values. -/

namespace Sys2Proof

/-- `BNNN_MODE` (R5, R88): whether the word `Bnnn` is an instruction of this core. -/
inductive BnnnMode where
  /-- `Bnnn` is illegal (the default). -/
  | unknown
  /-- `Bnnn` jumps to `nnn + V0`. -/
  | jumpV0
  deriving DecidableEq, Repr

/-- The parameters of R5. A machine carries them in `State.cfg`, so a theorem about every state is a
theorem about every parameter value the spec admits (log 3). -/
structure Config where
  /-- `FONT_BASE`, with `FONT_BASE + 80 <= 0x200`: the type holds the constraint. -/
  fontBase : Fin 433
  /-- `FONT_DATA`: 16 glyphs of 5 bytes. -/
  fontData : Vector Byte 80
  /-- `BNNN_MODE`. -/
  bnnnMode : BnnnMode
  deriving DecidableEq, Repr

/-- The parameters from plain numbers; refuses a font that does not fit below 0x200
(93_implementation_defined.md U12) or that is not 80 bytes long. -/
def Config.make (base : Nat) (font : List Byte) (mode : BnnnMode) : Option Config :=
  if hb : base + 80 ≤ 0x200 then
    if hf : font.length = 80 then
      some ⟨⟨base, by omega⟩, ⟨font.toArray, by simpa using hf⟩, mode⟩
    else none
  else none

/-- `FONT_BASE` of `State.reset`: the spec leaves it OPEN (R5, D18), so it is a constant nothing can
evaluate. Free value (log 3). -/
opaque Config.openFontBase : Fin 433

/-- `ev`, the key-event input of a Step (R225). -/
inductive KeyEvent where
  /-- no event -/
  | none
  /-- a genuine key-press edge of logical key `k` -/
  | press (k : Nibble)
  /-- an explicit external cancel request -/
  | cancel
  deriving DecidableEq, Repr, Inhabited

/-- The inputs of one Step: exactly `ev` and `rnd` (R221). -/
structure StepInput where
  /-- the key event (R225) -/
  ev  : KeyEvent
  /-- the random byte (R224) -/
  rnd : Byte
  deriving DecidableEq, Repr

/-- The key event of the `n`-th Step where the host has announced none: any event (U8). Free value (log 2). -/
opaque Config.freeEvent : Nat → KeyEvent

/-- The random byte of the `n`-th Step where the host has announced none: any byte, under no law
(R224, U7). Free value (log 2). -/
opaque Config.freeRandom : Nat → Byte

end Sys2Proof
end

