-- ==== Sys2Proof/Syntax.lean ====
section
/-! DEFINITION. The instructions: one constructor per row of spec/opcode_table.json (the map of
30_encoding.md R66), in the table's order, with the operand fields of R61. -/

namespace Sys2Proof

/-- An instruction. `x` and `y` index V registers, `n` is a sprite height, `kk` an 8-bit immediate,
`nnn` a 12-bit address. The `y` of `shrVx` and `shlVx` is encoded and ignored (R110, R112); it is kept so
that an instruction has one word. -/
inductive Instr where
  /-- `00E0` CLS (R195) -/
  | cls
  /-- `00EE` RET (R81) -/
  | ret
  /-- `1nnn` JP nnn (R82) -/
  | jp (nnn : Addr12)
  /-- `2nnn` CALL nnn (R83) -/
  | call (nnn : Addr12)
  /-- `3xkk` SE Vx, kk (R84) -/
  | seVxKk (x : Nibble) (kk : Byte)
  /-- `4xkk` SNE Vx, kk (R85) -/
  | sneVxKk (x : Nibble) (kk : Byte)
  /-- `5xy0` SE Vx, Vy (R86) -/
  | seVxVy (x y : Nibble)
  /-- `6xkk` LD Vx, kk (R100) -/
  | ldVxKk (x : Nibble) (kk : Byte)
  /-- `7xkk` ADD Vx, kk (R101) -/
  | addVxKk (x : Nibble) (kk : Byte)
  /-- `8xy0` LD Vx, Vy (R102) -/
  | ldVxVy (x y : Nibble)
  /-- `8xy1` OR Vx, Vy (R103) -/
  | orVxVy (x y : Nibble)
  /-- `8xy2` AND Vx, Vy (R104) -/
  | andVxVy (x y : Nibble)
  /-- `8xy3` XOR Vx, Vy (R105) -/
  | xorVxVy (x y : Nibble)
  /-- `8xy4` ADD Vx, Vy (R108) -/
  | addVxVy (x y : Nibble)
  /-- `8xy5` SUB Vx, Vy (R109) -/
  | subVxVy (x y : Nibble)
  /-- `8xy6` SHR Vx (R110) -/
  | shrVx (x y : Nibble)
  /-- `8xy7` SUBN Vx, Vy (R111) -/
  | subnVxVy (x y : Nibble)
  /-- `8xyE` SHL Vx (R112) -/
  | shlVx (x y : Nibble)
  /-- `9xy0` SNE Vx, Vy (R87) -/
  | sneVxVy (x y : Nibble)
  /-- `Annn` LD I, nnn (R130) -/
  | ldINnn (nnn : Addr12)
  /-- `Bnnn` JP V0, nnn (R88) -/
  | jpV0Nnn (nnn : Addr12)
  /-- `Cxkk` RND Vx, kk (R190) -/
  | rndVxKk (x : Nibble) (kk : Byte)
  /-- `Dxyn` DRW Vx, Vy, n (R150) -/
  | drwVxVyN (x y n : Nibble)
  /-- `Ex9E` SKP Vx (R170) -/
  | skpVx (x : Nibble)
  /-- `ExA1` SKNP Vx (R171) -/
  | sknpVx (x : Nibble)
  /-- `Fx07` LD Vx, DT (R177) -/
  | ldVxDt (x : Nibble)
  /-- `Fx0A` LD Vx, K (R172) -/
  | ldVxK (x : Nibble)
  /-- `Fx15` LD DT, Vx (R178) -/
  | ldDtVx (x : Nibble)
  /-- `Fx18` LD ST, Vx (R179) -/
  | ldStVx (x : Nibble)
  /-- `Fx1E` ADD I, Vx (R131) -/
  | addIVx (x : Nibble)
  /-- `Fx29` LD F, Vx (R132) -/
  | ldFVx (x : Nibble)
  /-- `Fx33` LD B, Vx (R133) -/
  | ldBVx (x : Nibble)
  /-- `Fx55` LD [I], Vx (R134) -/
  | ldMemIVx (x : Nibble)
  /-- `Fx65` LD Vx, [I] (R135) -/
  | ldVxMemI (x : Nibble)
  deriving DecidableEq, Repr

end Sys2Proof
end

