-- ==== Sys2Proof/Decode.lean ====
section
/-! DEFINITION. Decoding (30_encoding.md R61, R66 to R71) and, after it, the encoder written from the same
table. The decoder is total: every word is one row of R66 or is rejected under the name of the part of R70's
illegal set it falls in. -/

namespace Sys2Proof

/-- `op = w[15:12]` (R61). -/
def opField (w : Word) : Nibble := w.extractLsb' 12 4
/-- `x = w[11:8]` (R61). -/
def xField (w : Word) : Nibble := w.extractLsb' 8 4
/-- `y = w[7:4]` (R61). -/
def yField (w : Word) : Nibble := w.extractLsb' 4 4
/-- `n = w[3:0]` (R61). -/
def nField (w : Word) : Nibble := w.extractLsb' 0 4
/-- `kk = w[7:0]` (R61). -/
def kkField (w : Word) : Byte := w.extractLsb' 0 8
/-- `nnn = w[11:0]` (R61). -/
def nnnField (w : Word) : Addr12 := w.extractLsb' 0 12

/-- Why a word or a byte sequence is no instruction: the parts of R70's illegal set, in its order, and a
sequence too short to hold a word. -/
inductive DecodeError where
  /-- `0nnn` other than 00E0 and 00EE (R67) -/
  | unknownFamily0 (w : Word)
  /-- `5xyn` with n != 0 (R68) -/
  | unknownFamily5 (w : Word)
  /-- `8xyn` with n in 8, 9, A, B, C, D, F (R68) -/
  | unknownFamily8 (w : Word)
  /-- `9xyn` with n != 0 (R68) -/
  | unknownFamily9 (w : Word)
  /-- `Bnnn` when BNNN_MODE is Unknown (R88) -/
  | bnnnNotAdmitted (w : Word)
  /-- `Exkk` with kk not 9E or A1 (R69) -/
  | unknownFamilyE (w : Word)
  /-- `Fxkk` with kk not one of the nine of R69 -/
  | unknownFamilyF (w : Word)
  /-- fewer than two bytes: not a word -/
  | truncated
  deriving DecidableEq, Repr

/-- Family 0: selected by the whole word (R67). -/
def decodeFamily0 (w : Word) : Except DecodeError Instr :=
  if w = 0x00E0#16 then .ok .cls
  else if w = 0x00EE#16 then .ok .ret
  else .error (.unknownFamily0 w)

/-- Families 5 and 9 require `n = 0` (R68). -/
def decodeFamily5 (w : Word) : Except DecodeError Instr :=
  if nField w = 0#4 then .ok (.seVxVy (xField w) (yField w)) else .error (.unknownFamily5 w)

/-- Families 5 and 9 require `n = 0` (R68). -/
def decodeFamily9 (w : Word) : Except DecodeError Instr :=
  if nField w = 0#4 then .ok (.sneVxVy (xField w) (yField w)) else .error (.unknownFamily9 w)

/-- Family 8: selected by `n` (R68). -/
def decodeFamily8 (w : Word) : Except DecodeError Instr :=
  let x := xField w
  let y := yField w
  match (nField w).toNat with
  | 0x0 => .ok (.ldVxVy x y)
  | 0x1 => .ok (.orVxVy x y)
  | 0x2 => .ok (.andVxVy x y)
  | 0x3 => .ok (.xorVxVy x y)
  | 0x4 => .ok (.addVxVy x y)
  | 0x5 => .ok (.subVxVy x y)
  | 0x6 => .ok (.shrVx x y)
  | 0x7 => .ok (.subnVxVy x y)
  | 0xE => .ok (.shlVx x y)
  | _ => .error (.unknownFamily8 w)

/-- Family B: an instruction only if `BNNN_MODE = JumpV0` (R66, R88). -/
def decodeFamilyB (m : BnnnMode) (w : Word) : Except DecodeError Instr :=
  match m with
  | .jumpV0 => .ok (.jpV0Nnn (nnnField w))
  | .unknown => .error (.bnnnNotAdmitted w)

/-- Family E: selected by `kk` (R69). -/
def decodeFamilyE (w : Word) : Except DecodeError Instr :=
  if kkField w = 0x9E#8 then .ok (.skpVx (xField w))
  else if kkField w = 0xA1#8 then .ok (.sknpVx (xField w))
  else .error (.unknownFamilyE w)

/-- Family F: selected by `kk` (R69). -/
def decodeFamilyF (w : Word) : Except DecodeError Instr :=
  let x := xField w
  let kk := kkField w
  if kk = 0x07#8 then .ok (.ldVxDt x)
  else if kk = 0x0A#8 then .ok (.ldVxK x)
  else if kk = 0x15#8 then .ok (.ldDtVx x)
  else if kk = 0x18#8 then .ok (.ldStVx x)
  else if kk = 0x1E#8 then .ok (.addIVx x)
  else if kk = 0x29#8 then .ok (.ldFVx x)
  else if kk = 0x33#8 then .ok (.ldBVx x)
  else if kk = 0x55#8 then .ok (.ldMemIVx x)
  else if kk = 0x65#8 then .ok (.ldVxMemI x)
  else .error (.unknownFamilyF w)

/-- `Decode(word)` of R66, by the top nibble and then the family's sub-selector (R67 to R69). An `error` is the
spec's `UNKNOWN`. The last arm is family F, the only nibble the others leave. -/
def decode (m : BnnnMode) (w : Word) : Except DecodeError Instr :=
  match (opField w).toNat with
  | 0x0 => decodeFamily0 w
  | 0x1 => .ok (.jp (nnnField w))
  | 0x2 => .ok (.call (nnnField w))
  | 0x3 => .ok (.seVxKk (xField w) (kkField w))
  | 0x4 => .ok (.sneVxKk (xField w) (kkField w))
  | 0x5 => decodeFamily5 w
  | 0x6 => .ok (.ldVxKk (xField w) (kkField w))
  | 0x7 => .ok (.addVxKk (xField w) (kkField w))
  | 0x8 => decodeFamily8 w
  | 0x9 => decodeFamily9 w
  | 0xA => .ok (.ldINnn (nnnField w))
  | 0xB => decodeFamilyB m w
  | 0xC => .ok (.rndVxKk (xField w) (kkField w))
  | 0xD => .ok (.drwVxVyN (xField w) (yField w) (nField w))
  | 0xE => decodeFamilyE w
  | _ => decodeFamilyF w

/-- A 16-bit word from two bytes, the first at the lower address: big-endian (20_memory.md R41). -/
def wordOfBytes (hi lo : Byte) : Word := hi ++ lo

/-- The byte of a word stored at the lower address: bits 15:8 (R41). -/
def highByte (w : Word) : Byte := w.extractLsb' 8 8

/-- The byte of a word stored at the higher address: bits 7:0 (R41). -/
def lowByte (w : Word) : Byte := w.extractLsb' 0 8

/-- Decode the first instruction of a byte sequence, and give the bytes after it. -/
def decodeBytes (m : BnnnMode) : List Byte → Except DecodeError (Instr × List Byte)
  | hi :: lo :: rest => (decode m (wordOfBytes hi lo)).map (fun i => (i, rest))
  | [_] => .error .truncated
  | [] => .error .truncated

/-- The word of an instruction: its row of R66 with the operand fields of R61 in place. -/
def encode : Instr → Word
  | .cls => 0x00E0#16
  | .ret => 0x00EE#16
  | .jp nnn => 0x1#4 ++ nnn
  | .call nnn => 0x2#4 ++ nnn
  | .seVxKk x kk => 0x3#4 ++ x ++ kk
  | .sneVxKk x kk => 0x4#4 ++ x ++ kk
  | .seVxVy x y => 0x5#4 ++ x ++ y ++ 0x0#4
  | .ldVxKk x kk => 0x6#4 ++ x ++ kk
  | .addVxKk x kk => 0x7#4 ++ x ++ kk
  | .ldVxVy x y => 0x8#4 ++ x ++ y ++ 0x0#4
  | .orVxVy x y => 0x8#4 ++ x ++ y ++ 0x1#4
  | .andVxVy x y => 0x8#4 ++ x ++ y ++ 0x2#4
  | .xorVxVy x y => 0x8#4 ++ x ++ y ++ 0x3#4
  | .addVxVy x y => 0x8#4 ++ x ++ y ++ 0x4#4
  | .subVxVy x y => 0x8#4 ++ x ++ y ++ 0x5#4
  | .shrVx x y => 0x8#4 ++ x ++ y ++ 0x6#4
  | .subnVxVy x y => 0x8#4 ++ x ++ y ++ 0x7#4
  | .shlVx x y => 0x8#4 ++ x ++ y ++ 0xE#4
  | .sneVxVy x y => 0x9#4 ++ x ++ y ++ 0x0#4
  | .ldINnn nnn => 0xA#4 ++ nnn
  | .jpV0Nnn nnn => 0xB#4 ++ nnn
  | .rndVxKk x kk => 0xC#4 ++ x ++ kk
  | .drwVxVyN x y n => 0xD#4 ++ x ++ y ++ n
  | .skpVx x => 0xE#4 ++ x ++ 0x9E#8
  | .sknpVx x => 0xE#4 ++ x ++ 0xA1#8
  | .ldVxDt x => 0xF#4 ++ x ++ 0x07#8
  | .ldVxK x => 0xF#4 ++ x ++ 0x0A#8
  | .ldDtVx x => 0xF#4 ++ x ++ 0x15#8
  | .ldStVx x => 0xF#4 ++ x ++ 0x18#8
  | .addIVx x => 0xF#4 ++ x ++ 0x1E#8
  | .ldFVx x => 0xF#4 ++ x ++ 0x29#8
  | .ldBVx x => 0xF#4 ++ x ++ 0x33#8
  | .ldMemIVx x => 0xF#4 ++ x ++ 0x55#8
  | .ldVxMemI x => 0xF#4 ++ x ++ 0x65#8

/-- The mask of an instruction's row of R66. -/
def Instr.mask : Instr → Word
  | .cls | .ret => 0xFFFF#16
  | .jp _ | .call _ | .ldINnn _ | .jpV0Nnn _ => 0xF000#16
  | .seVxKk _ _ | .sneVxKk _ _ | .ldVxKk _ _ | .addVxKk _ _ | .rndVxKk _ _ => 0xF000#16
  | .drwVxVyN _ _ _ => 0xF000#16
  | .seVxVy _ _ | .ldVxVy _ _ | .orVxVy _ _ | .andVxVy _ _ | .xorVxVy _ _ => 0xF00F#16
  | .addVxVy _ _ | .subVxVy _ _ | .shrVx _ _ | .subnVxVy _ _ | .shlVx _ _ | .sneVxVy _ _ => 0xF00F#16
  | .skpVx _ | .sknpVx _ | .ldVxDt _ | .ldVxK _ | .ldDtVx _ | .ldStVx _ => 0xF0FF#16
  | .addIVx _ | .ldFVx _ | .ldBVx _ | .ldMemIVx _ | .ldVxMemI _ => 0xF0FF#16

/-- The `match` value of an instruction's row of R66. -/
def Instr.pattern : Instr → Word
  | .cls => 0x00E0#16
  | .ret => 0x00EE#16
  | .jp _ => 0x1000#16
  | .call _ => 0x2000#16
  | .seVxKk _ _ => 0x3000#16
  | .sneVxKk _ _ => 0x4000#16
  | .seVxVy _ _ => 0x5000#16
  | .ldVxKk _ _ => 0x6000#16
  | .addVxKk _ _ => 0x7000#16
  | .ldVxVy _ _ => 0x8000#16
  | .orVxVy _ _ => 0x8001#16
  | .andVxVy _ _ => 0x8002#16
  | .xorVxVy _ _ => 0x8003#16
  | .addVxVy _ _ => 0x8004#16
  | .subVxVy _ _ => 0x8005#16
  | .shrVx _ _ => 0x8006#16
  | .subnVxVy _ _ => 0x8007#16
  | .shlVx _ _ => 0x800E#16
  | .sneVxVy _ _ => 0x9000#16
  | .ldINnn _ => 0xA000#16
  | .jpV0Nnn _ => 0xB000#16
  | .rndVxKk _ _ => 0xC000#16
  | .drwVxVyN _ _ _ => 0xD000#16
  | .skpVx _ => 0xE09E#16
  | .sknpVx _ => 0xE0A1#16
  | .ldVxDt _ => 0xF007#16
  | .ldVxK _ => 0xF00A#16
  | .ldDtVx _ => 0xF015#16
  | .ldStVx _ => 0xF018#16
  | .addIVx _ => 0xF01E#16
  | .ldFVx _ => 0xF029#16
  | .ldBVx _ => 0xF033#16
  | .ldMemIVx _ => 0xF055#16
  | .ldVxMemI _ => 0xF065#16

/-- The instruction word the opcode table numbers `w` in `nbits` bits: its low 16 bits, those above `nbits` zero.
Every instruction is one word, so bit 0 of the table's number is bit 0 of that word. -/
def tableWord (nbits w : Nat) : Word := BitVec.ofNat 16 (w % 2 ^ nbits)

/-- The decoder's reading of a table row's word, laid out as two bytes, high byte first. It decodes under
`BNNN_MODE = JumpV0`, the mode in which every row of the table is an instruction (log 5). -/
def decodeTableWord (nbits w : Nat) : Option Instr :=
  match decodeBytes .jumpV0 [highByte (tableWord nbits w), lowByte (tableWord nbits w)] with
  | .ok (i, _) => some i
  | .error _ => none

end Sys2Proof
end

