-- ==== Sys2Proof/Machine/Memory.lean ====
section
/-! DEFINITION. Memory as a list of cells in canonical form (20_memory.md R40 to R47): addresses strictly rising,
none above 0xFFF, and no cell equal to what an unlisted address reads as, which is its reset contents
(10_state.md R33). -/

namespace Sys2Proof.Machine

/-- `MEM_SIZE` (00_scope.md R5). -/
def memSize : Nat := 4096

/-- `PROG_BASE` (00_scope.md R5): where Load starts and the reset value of `PC`. -/
def progBase : Nat := 0x200

/-- What an unlisted address reads as: its reset contents (10_state.md R33). The font lies below 0x200 (20_memory.md
R46), so every address from 0x200 up reads 0; below, `FONT_BASE + k` reads `FONT_DATA[k]` for k in 0..79 and every
other address reads 0. -/
def resetByte (cfg : Config) (a : Nat) : Byte :=
  if progBase ≤ a then 0
  else if h : cfg.fontBase.val ≤ a ∧ a - cfg.fontBase.val < 80 then cfg.fontData[a - cfg.fontBase.val]'h.2
  else 0

/-- Memory: the cells that differ from their reset contents. -/
abbrev Memory := List Host.Cell

/-- The byte listed at an address, if one is. -/
def Memory.lookup : Memory → Nat → Option Byte
  | [], _ => none
  | c :: m, a => if c.1 = a then some c.2 else Memory.lookup m a

/-- List `v` at address `a`, in the place the rising order gives it. -/
def Memory.put : Memory → Nat → Byte → Memory
  | [], a, v => [(a, v)]
  | c :: m, a, v =>
    if a < c.1 then (a, v) :: c :: m
    else if c.1 = a then (a, v) :: m
    else c :: Memory.put m a v

/-- Unlist address `a`. -/
def Memory.drop : Memory → Nat → Memory
  | [], _ => []
  | c :: m, a => if c.1 = a then m else c :: Memory.drop m a

/-- The byte at an address of the space. -/
def Memory.read (cfg : Config) (m : Memory) (a : Nat) : Byte :=
  match Memory.lookup m a with
  | some v => v
  | none => resetByte cfg a

/-- Store a byte, keeping the canonical form: a byte equal to the reset contents is not listed. -/
def Memory.write (cfg : Config) (m : Memory) (a : Nat) (v : Byte) : Memory :=
  if v = resetByte cfg a then Memory.drop m a else Memory.put m a v

/-- Every address of the list lies above `a`, and the addresses rise strictly. -/
def Memory.risesAbove : Nat → Memory → Bool
  | _, [] => true
  | a, c :: m => decide (a < c.1) && Memory.risesAbove c.1 m

/-- The addresses of the list rise strictly. -/
def Memory.rises : Memory → Bool
  | [] => true
  | c :: m => Memory.risesAbove c.1 m

/-- The canonical form. -/
def Memory.wf (cfg : Config) (m : Memory) : Bool :=
  Memory.rises m && m.all (fun c => decide (c.1 < memSize) && decide (c.2 ≠ resetByte cfg c.1))

end Sys2Proof.Machine
end

