-- ==== Sys2Proof/Machine/Parameters.lean ====
section
/-! DEFINITION. The parameter values `State.reset` runs with: the spec's defaults (00_scope.md R5), and for
`FONT_BASE`, which the spec leaves OPEN, the opaque constant of Config. -/

namespace Sys2Proof.Machine

/-- The default `FONT_DATA` of 20_memory.md R45: the glyphs 0 to F, five bytes each, top row first (log 4). -/
def standardFont : Vector Byte 80 := #v[
  0xF0, 0x90, 0x90, 0x90, 0xF0,
  0x20, 0x60, 0x20, 0x20, 0x70,
  0xF0, 0x10, 0xF0, 0x80, 0xF0,
  0xF0, 0x10, 0xF0, 0x10, 0xF0,
  0x90, 0x90, 0xF0, 0x10, 0x10,
  0xF0, 0x80, 0xF0, 0x10, 0xF0,
  0xF0, 0x80, 0xF0, 0x90, 0xF0,
  0xF0, 0x10, 0x20, 0x40, 0x40,
  0xF0, 0x90, 0xF0, 0x90, 0xF0,
  0xF0, 0x90, 0xF0, 0x10, 0xF0,
  0xF0, 0x90, 0xF0, 0x90, 0x90,
  0xE0, 0x90, 0xE0, 0x90, 0xE0,
  0xF0, 0x80, 0x80, 0x80, 0xF0,
  0xE0, 0x90, 0x90, 0x90, 0xE0,
  0xF0, 0x80, 0xF0, 0x80, 0xF0,
  0xF0, 0x80, 0xF0, 0x80, 0x80]

/-- The parameters of `State.reset`: `FONT_BASE` open (log 3), the default font, `BNNN_MODE = Unknown` (R5). -/
def defaultConfig : Config :=
  { fontBase := Config.openFontBase, fontData := standardFont, bnnnMode := .unknown }

end Sys2Proof.Machine
end

