-- ==== Sys2Proof/Machine/State.lean ====
section
/-! DEFINITION. The state of the machine as plain data (spec/10_state.md R10 to R33), the ways a step can stop, and
the state right after reset. -/

namespace Sys2Proof.Machine

/-- The causes of a fault (60_exceptions.md R202). -/
inductive FaultCause where
  /-- an illegal word (R203) -/
  | unknownOpcode
  /-- a fetch at `PC >= 0xFFF` (R207) -/
  | fetchBounds
  /-- a data address above 0xFFF (R206) -/
  | memBounds
  /-- CALL with 16 entries in use (R204) -/
  | stackOverflow
  /-- RET with an empty stack (R205) -/
  | stackUnderflow
  /-- EX9E or EXA1 with `V[x] > 15` (R208) -/
  | keyIndex
  deriving DecidableEq, Repr

/-- The core's status (10_state.md R30), readable by no instruction. -/
inductive Status where
  /-- the next Step fetches an instruction -/
  | run
  /-- suspended in FX0A, waiting for a key to put in `V[x]` -/
  | wait (x : Nibble)
  /-- the key wait was cancelled; nothing executes until reset -/
  | cancelled
  /-- a fault ended the program: its cause, the address and word of the instruction, and a cause-specific value -/
  | faulted (cause : FaultCause) (addr word info : Word)
  deriving DecidableEq, Repr

/-- What a Step reports to the host (60_exceptions.md R200). -/
inductive StepOutcome where
  /-- one instruction completed, or a pending key wait resolved -/
  | ok
  /-- suspended in a key wait -/
  | waiting
  /-- the key wait was cancelled -/
  | cancelled
  /-- the program faulted -/
  | fault (cause : FaultCause)
  deriving DecidableEq, Repr

/-- One row of pixels, column 0 first (10_state.md R21). -/
abbrev PixelRow := Vector Bool 64

/-- The framebuffer: 32 rows, row 0 first, so row-major (10_state.md R21). -/
abbrev Framebuffer := Vector PixelRow 32

/-- The machine's state: everything 10_state.md gives the core, then the parameters (R32, log 3), then the model's
own two fields that carry the inputs of a Step (log 2). -/
structure State where
  /-- `V[0..15]` (R10) -/
  v      : Vector Byte 16
  /-- `I` (R13) -/
  i      : Word
  /-- `PC` (R14) -/
  pc     : Word
  /-- `STACK[0..15]` (R17) -/
  stack  : Vector Word 16
  /-- `SP`, the number of entries in use, 0..16 (R18) -/
  sp     : Fin 17
  /-- `DT` (R19) -/
  dt     : Byte
  /-- `ST` (R20) -/
  st     : Byte
  /-- `FB` (R21) -/
  fb     : Framebuffer
  /-- `KEY[0..15]` (R22) -/
  keys   : Vector Bool 16
  /-- `MEM[0..4095]` (R23) -/
  mem    : Memory
  /-- the status (R30) -/
  status : Status
  /-- the parameters (00_scope.md R5); no operation changes them -/
  cfg    : Config
  /-- the model's own: inputs announced for coming Steps, the next one first (log 2) -/
  inputs : List StepInput
  /-- the model's own: how many Steps have been done, which picks the free inputs (log 2) -/
  draws  : Nat
  deriving DecidableEq, Repr

/-- Ways the machine stops with no next state. There is none: every fault of the spec is a described state change
(60_exceptions.md R201), so it is a next state with status FAULTED (log 1). Nobody raises one. -/
inductive Fault where
  deriving DecidableEq, Repr

/-- Ways a step is refused. -/
inductive Refusal where
  /-- An instruction whose meaning is not written yet, by its mnemonic. Raised by an arm of `exec` only; safe. No arm
  raises it: every instruction has its meaning. -/
  | notModelled (mnemonic : String)
  deriving DecidableEq, Repr

/-- The reset state under given parameters (10_state.md R33, 70_reset_and_hazards.md R240). Memory lists nothing:
an unlisted byte reads as its reset contents. -/
def State.resetWith (cfg : Config) : State where
  v      := Vector.replicate 16 0
  i      := 0
  pc     := BitVec.ofNat 16 progBase
  stack  := Vector.replicate 16 0
  sp     := 0
  dt     := 0
  st     := 0
  fb     := Vector.replicate 32 (Vector.replicate 64 false)
  keys   := Vector.replicate 16 false
  mem    := []
  status := .run
  cfg    := cfg
  inputs := []
  draws  := 0

/-- The machine right after reset, under the spec's default parameters (R33, R240). -/
def State.reset : State := State.resetWith defaultConfig

end Sys2Proof.Machine
end

