-- ==== Sys2Proof/Machine/Ops.lean ====
section
/-! DEFINITION. The named operations over registers, program counter, stack and memory, the taking of a fault
(60_exceptions.md R201) with the return from one beside it (R211, 70_reset_and_hazards.md R240), and the inputs of a
Step. Every meaning goes through these. -/

namespace Sys2Proof.Machine

/-- What running an instruction or a Step answers. -/
abbrev Result := Host.Outcome State Fault Refusal

/-- `FLAG_REG`: VF is `V[15]` (00_scope.md R5, 10_state.md R11). -/
abbrev vf : Nibble := 0xF#4

/-- `V[x]` (10_state.md R10). -/
def State.reg (s : State) (x : Nibble) : Byte := s.v[x.toNat]'x.isLt

/-- `V[x] <- b` (10_state.md R10). -/
def State.setReg (s : State) (x : Nibble) (b : Byte) : State :=
  { s with v := s.v.set x.toNat b x.isLt }

/-- `I <- w` (10_state.md R13). -/
def State.setIndex (s : State) (w : Word) : State := { s with i := w }

/-- `PC <- target` (00_scope.md R7). -/
def State.jump (s : State) (target : Word) : State := { s with pc := target }

/-- `PC <- (PC + 2) mod 65536` (30_encoding.md R65, 40_control_flow.md R80). -/
def State.advancePc (s : State) : State := { s with pc := s.pc + 2 }

/-- A skip: one more instruction width when the condition holds (40_control_flow.md R80). -/
def State.skipIf (s : State) (c : Bool) : State := if c then s.advancePc else s

/-- Push a return address: write `STACK[SP]`, then increment `SP`; `none` when 16 entries are in use
(10_state.md R18). -/
def State.push (s : State) (ra : Word) : Option State :=
  if h : s.sp.val < 16 then
    some { s with stack := s.stack.set s.sp.val ra h, sp := ⟨s.sp.val + 1, by omega⟩ }
  else none

/-- Pop a return address: decrement `SP`, then read `STACK[SP]`, which keeps its entry; `none` when the stack is
empty (10_state.md R18). -/
def State.pop (s : State) : Option (Word × State) :=
  if h : s.sp.val = 0 then none
  else
    have hlt : s.sp.val - 1 < 16 := by have := s.sp.isLt; omega
    some (s.stack[s.sp.val - 1], { s with sp := ⟨s.sp.val - 1, by omega⟩ })

/-- `MemRead(a, 1)` at an address of the space (20_memory.md R42). -/
def State.readByte (s : State) (a : Nat) : Byte := Memory.read s.cfg s.mem a

/-- `MemWrite(a, 1, b)` (20_memory.md R43). An address above 0xFFF stores nothing; the meanings check their addresses
first (log 14). -/
def State.writeByte (s : State) (a : Nat) (b : Byte) : State :=
  if a < memSize then { s with mem := Memory.write s.cfg s.mem a b } else s

/-- Store bytes at ascending addresses (20_memory.md R41). -/
def State.writeBytes (s : State) (a : Nat) : List Byte → State
  | [] => s
  | b :: bs => State.writeBytes (s.writeByte a b) (a + 1) bs

/-- The bytes of `n` ascending addresses from `a` (20_memory.md R41). -/
def State.readBytes (s : State) (a n : Nat) : List Byte :=
  (List.range n).map (fun k => s.readByte (a + k))

/-- The `n` addresses from `a` all lie in the address space; addresses are exact integers (20_memory.md R44). No
address is used when `n` is 0. -/
def spanFits (a n : Nat) : Bool := n == 0 || decide (a + (n - 1) ≤ 0xFFF)

/-- The `n` data bytes from `I`, or `none` if one of their addresses exceeds 0xFFF (20_memory.md R44). -/
def State.loadSpan (s : State) (n : Nat) : Option (List Byte) :=
  if spanFits s.i.toNat n then some (s.readBytes s.i.toNat n) else none

/-- Store data bytes from `I` upward, or `none`, with nothing stored, if one of their addresses exceeds 0xFFF
(20_memory.md R44). -/
def State.storeSpan (s : State) (bs : List Byte) : Option State :=
  if spanFits s.i.toNat bs.length then some (s.writeBytes s.i.toNat bs) else none

/-- `info` of MEM_BOUNDS: `max(I, 0x1000)`, the lowest out-of-range address (20_memory.md R44). -/
def State.memBoundsInfo (s : State) : Word := BitVec.ofNat 16 (max s.i.toNat 0x1000)

/-- Write `V[k], V[k+1], ...` from a list of bytes, stopping at V[15]. -/
def setRegsFrom (v : Vector Byte 16) (k : Nat) : List Byte → Vector Byte 16
  | [] => v
  | b :: bs => setRegsFrom (v.setIfInBounds k b) (k + 1) bs

/-- Write `V[0..]` from a list of bytes (42_index_memory.md R135). -/
def State.setRegs (s : State) (bs : List Byte) : State := { s with v := setRegsFrom s.v 0 bs }

/-- The numeric code of a cause (60_exceptions.md R202). -/
def FaultCause.code : FaultCause → Nat
  | .unknownOpcode => 1
  | .fetchBounds => 2
  | .memBounds => 3
  | .stackOverflow => 4
  | .stackUnderflow => 5
  | .keyIndex => 6

/-- Take a fault: the status records it and nothing else changes (60_exceptions.md R201). -/
def State.takeFault (s : State) (cause : FaultCause) (addr word info : Word) : State :=
  { s with status := .faulted cause addr word info }

/-- `raise Fault(cause, info)` from the meaning of `i`: `PC` is `a + 2` during the execute phase (10_state.md R14), so
`addr` is `PC - 2`, and the word is the one `i` was decoded from (log 6). -/
def raise (i : Instr) (cause : FaultCause) (info : Word) (s : State) : Result :=
  .next (s.takeFault cause (s.pc - 2) (encode i) info)

/-- Reset, the only way out of FAULTED and CANCELLED (60_exceptions.md R211, 70_reset_and_hazards.md R240): every piece
of the spec's state gets its reset value. The parameters stay, and so do the model's own input fields (log 12). -/
def State.hostReset (s : State) : State :=
  { State.resetWith s.cfg with inputs := s.inputs, draws := s.draws }

/-- The inputs of the Step in progress (60_exceptions.md R221): those the host announced, else free ones (log 2). -/
def State.input (s : State) : StepInput :=
  match s.inputs with
  | [] => { ev := Config.freeEvent s.draws, rnd := Config.freeRandom s.draws }
  | inp :: _ => inp

/-- The end of a Step: its inputs are used up (log 2). -/
def State.consumeInput (s : State) : State :=
  { s with inputs := s.inputs.tail, draws := s.draws + 1 }

/-- The outcome a Step reports, which its status afterwards determines (60_exceptions.md R200; log 13). -/
def Status.outcome : Status → StepOutcome
  | .run => .ok
  | .wait _ => .waiting
  | .cancelled => .cancelled
  | .faulted cause _ _ _ => .fault cause

/-- The word at `PC`, big-endian (20_memory.md R41), or `none` when its second byte would lie above 0xFFF
(30_encoding.md R64). -/
def State.fetchWord (s : State) : Option Word :=
  if s.pc.toNat + 1 > 0xFFF then none
  else some (wordOfBytes (s.readByte s.pc.toNat) (s.readByte (s.pc.toNat + 1)))

/-- Store a word at `PC`, high byte first. -/
def State.placeWord (s : State) (w : Word) : State :=
  s.writeBytes s.pc.toNat [highByte w, lowByte w]

end Sys2Proof.Machine
end

