-- ==== Sys2Proof/Machine/Operands.lean ====
section
/-! DEFINITION. The operand forms the instructions compute from their fields and the state (30_encoding.md R62,
42_index_memory.md, 43_graphics.md R150 and R151, 44_input_timers.md R170). -/

namespace Sys2Proof.Machine

/-- `zext_16(nnn)` (30_encoding.md R62). -/
def zextAddr (nnn : Addr12) : Word := nnn.setWidth 16

/-- A key index as a register value (44_input_timers.md R173). -/
def zextKey (k : Nibble) : Byte := k.setWidth 8

/-- `FONT_BASE + 5 * (v & 0x0F)` (42_index_memory.md R132). -/
def glyphAddr (cfg : Config) (v : Byte) : Word :=
  BitVec.ofNat 16 (cfg.fontBase.val + 5 * (v &&& 0x0F#8).toNat)

/-- The hundreds, tens and ones digits of a byte (42_index_memory.md R133). -/
def decimalDigits (v : Byte) : List Byte :=
  [BitVec.ofNat 8 (v.toNat / 100), BitVec.ofNat 8 (v.toNat / 10 % 10), BitVec.ofNat 8 (v.toNat % 10)]

/-- `V[0], ..., V[x]`: `x + 1` registers (42_index_memory.md R134). -/
def State.regsUpTo (s : State) (x : Nibble) : List Byte := s.v.toList.take (x.toNat + 1)

/-- The origin column `V[x] mod 64` (43_graphics.md R151). -/
def State.originColumn (s : State) (x : Nibble) : Nat := (s.reg x).toNat % 64

/-- The origin row `V[y] mod 32` (43_graphics.md R151). -/
def State.originRow (s : State) (y : Nibble) : Nat := (s.reg y).toNat % 32

/-- `h = min(n, 32 - y0)`: the rows drawn (43_graphics.md R150, R152). -/
def drawnRows (n : Nibble) (y0 : Nat) : Nat := min n.toNat (32 - y0)

/-- `KEY[k]` for a key index 0..15, and `none` for a value that names no key (44_input_timers.md R170). -/
def State.keyHeld (s : State) (k : Byte) : Option Bool :=
  if h : k.toNat < 16 then some s.keys[k.toNat] else none

end Sys2Proof.Machine
end

