-- ==== Sys2Proof/Machine/ControlFlow.lean ====
section
/-! DEFINITION. The control flow instructions (40_control_flow.md R80 to R89). On entry `PC` is `a + 2`. -/

namespace Sys2Proof.Machine

/-- RET (R81). -/
def execRet (s : State) : Result :=
  match s.pop with
  | none => raise .ret .stackUnderflow 0 s
  | some (ra, t) => .next (t.jump ra)

/-- JP nnn (R82). -/
def execJp (nnn : Addr12) (s : State) : Result := .next (s.jump (zextAddr nnn))

/-- CALL nnn (R83): it pushes `a + 2`. -/
def execCall (nnn : Addr12) (s : State) : Result :=
  match s.push s.pc with
  | none => raise (.call nnn) .stackOverflow 0 s
  | some t => .next (t.jump (zextAddr nnn))

/-- SE Vx, kk (R84). -/
def execSeVxKk (x : Nibble) (kk : Byte) (s : State) : Result := .next (s.skipIf (s.reg x == kk))

/-- SNE Vx, kk (R85). -/
def execSneVxKk (x : Nibble) (kk : Byte) (s : State) : Result := .next (s.skipIf (s.reg x != kk))

/-- SE Vx, Vy (R86). -/
def execSeVxVy (x y : Nibble) (s : State) : Result := .next (s.skipIf (s.reg x == s.reg y))

/-- SNE Vx, Vy (R87). -/
def execSneVxVy (x y : Nibble) (s : State) : Result := .next (s.skipIf (s.reg x != s.reg y))

/-- JP V0, nnn (R88): under `BNNN_MODE = Unknown` the word is illegal (log 5). -/
def execJpV0Nnn (nnn : Addr12) (s : State) : Result :=
  match s.cfg.bnnnMode with
  | .unknown => raise (.jpV0Nnn nnn) .unknownOpcode 0 s
  | .jumpV0 => .next (s.jump (zextAddr nnn + (s.reg 0x0#4).setWidth 16))

end Sys2Proof.Machine
end

