-- ==== Sys2Proof/Machine/Flags.lean ====
section
/-! DEFINITION. The flag computations of 41_register_arith.md R106, and the one operation that writes a result and a
flag. Each flag is 0 or 1 in VF. -/

namespace Sys2Proof.Machine

/-- A flag as a register value: 1 or 0 (R106). -/
def flagByte (f : Bool) : Byte := if f then 1 else 0

/-- `VF <- f`. -/
def State.setFlag (s : State) (f : Bool) : State := s.setReg vf (flagByte f)

/-- Write `V[x]`, then the flag, so that VF ends holding the flag when `x` is 0xF (10_state.md R12). -/
def State.setRegFlag (s : State) (x : Nibble) (r : Byte) (f : Bool) : State := (s.setReg x r).setFlag f

/-- Carry of an addition: the exact sum exceeds 255 (R108). -/
def carryOut (a b : Byte) : Bool := decide (a.toNat + b.toNat > 255)

/-- No borrow in `a - b`: `a >= b` (R109, R111). -/
def noBorrow (a b : Byte) : Bool := decide (a.toNat ≥ b.toNat)

/-- The bit a right shift by one shifts out: bit 0 (R110). -/
def shiftedOutRight (a : Byte) : Bool := a.getLsbD 0

/-- The bit a left shift by one shifts out: bit 7 (R112). -/
def shiftedOutLeft (a : Byte) : Bool := a.getLsbD 7

end Sys2Proof.Machine
end

