-- ==== Sys2Proof/Machine/Graphics.lean ====
section
/-! DEFINITION. The framebuffer: screen clear (46_screen_clear.md R195) and sprite draw (43_graphics.md R150 to R157),
written as the loops of R150. -/

namespace Sys2Proof.Machine

/-- `FB[y][x]`, row `y`, column `x` (10_state.md R21). Off the grid there is no pixel; the draw never asks (log 14). -/
def pixel (fb : Framebuffer) (y x : Nat) : Bool :=
  if h : y < 32 ∧ x < 64 then (fb[y]'h.1)[x]'h.2 else false

/-- `FB[y][x] <- b` (10_state.md R21). -/
def setPixel (fb : Framebuffer) (y x : Nat) (b : Bool) : Framebuffer :=
  if h : y < 32 ∧ x < 64 then fb.set y ((fb[y]'h.1).set x b h.2) h.1 else fb

/-- All 2048 pixels off (R195). -/
def clearedFramebuffer : Framebuffer := Vector.replicate 32 (Vector.replicate 64 false)

/-- A draw in progress: the pixels, and whether a flip has turned one off. -/
structure Drawing where
  /-- the pixels so far -/
  fb  : Framebuffer
  /-- a flip has turned a pixel off (R154) -/
  hit : Bool
  deriving DecidableEq, Repr

/-- Flip one pixel (R150). -/
def Drawing.flip (d : Drawing) (y x : Nat) : Drawing :=
  { fb := setPixel d.fb y x (!pixel d.fb y x), hit := d.hit || pixel d.fb y x }

/-- One column of a sprite row: bit `7 - c` of `b`, at column `(x0 + c) mod 64` (R150, R153). -/
def Drawing.column (d : Drawing) (x0 y : Nat) (b : Byte) (c : Nat) : Drawing :=
  if b.getLsbD (7 - c) then d.flip y ((x0 + c) % 64) else d

/-- One sprite row, most significant bit first (R150). -/
def Drawing.row (d : Drawing) (x0 y : Nat) (b : Byte) : Drawing :=
  (List.range 8).foldl (fun d c => d.column x0 y b c) d

/-- The sprite's rows, the first at screen row `y`, each next one below it (R150). -/
def Drawing.rows (d : Drawing) (x0 y : Nat) : List Byte → Drawing
  | [] => d
  | b :: bs => Drawing.rows (d.row x0 y b) x0 (y + 1) bs

/-- CLS (R195). -/
def execCls (s : State) : Result := .next { s with fb := clearedFramebuffer }

/-- DRW Vx, Vy, n (R150): the coordinates are read before VF is written, the `h` drawn rows are bounds-checked before
anything changes, and VF ends holding the collision flag. -/
def execDrwVxVyN (x y n : Nibble) (s : State) : Result :=
  match s.loadSpan (drawnRows n (s.originRow y)) with
  | none => raise (.drwVxVyN x y n) .memBounds s.memBoundsInfo s
  | some sprite =>
    let d := Drawing.rows { fb := s.fb, hit := false } (s.originColumn x) (s.originRow y) sprite
    .next ({ s with fb := d.fb }.setFlag d.hit)

end Sys2Proof.Machine
end

