-- ==== Sys2Proof/Machine/IndexMemory.lean ====
section
/-! DEFINITION. The index register and memory instructions (42_index_memory.md R130 to R136). `PC` stays at `a + 2`;
no access changes `I` (R136). -/

namespace Sys2Proof.Machine

/-- LD I, nnn (R130). -/
def execLdINnn (nnn : Addr12) (s : State) : Result := .next (s.setIndex (zextAddr nnn))

/-- ADD I, Vx (R131): wraps modulo 65536, no flag. -/
def execAddIVx (x : Nibble) (s : State) : Result := .next (s.setIndex (s.i + (s.reg x).setWidth 16))

/-- LD F, Vx (R132). -/
def execLdFVx (x : Nibble) (s : State) : Result := .next (s.setIndex (glyphAddr s.cfg (s.reg x)))

/-- LD B, Vx (R133). -/
def execLdBVx (x : Nibble) (s : State) : Result :=
  match s.storeSpan (decimalDigits (s.reg x)) with
  | none => raise (.ldBVx x) .memBounds s.memBoundsInfo s
  | some t => .next t

/-- LD [I], Vx (R134). -/
def execLdMemIVx (x : Nibble) (s : State) : Result :=
  match s.storeSpan (s.regsUpTo x) with
  | none => raise (.ldMemIVx x) .memBounds s.memBoundsInfo s
  | some t => .next t

/-- LD Vx, [I] (R135). -/
def execLdVxMemI (x : Nibble) (s : State) : Result :=
  match s.loadSpan (x.toNat + 1) with
  | none => raise (.ldVxMemI x) .memBounds s.memBoundsInfo s
  | some bs => .next (s.setRegs bs)

end Sys2Proof.Machine
end

