-- ==== Sys2Proof/Machine/InputTimers.lean ====
section
/-! DEFINITION. Key skips, the key wait and timer access (44_input_timers.md R170 to R179). On entry `PC` is
`a + 2`. -/

namespace Sys2Proof.Machine

/-- SKP Vx (R170). -/
def execSkpVx (x : Nibble) (s : State) : Result :=
  match s.keyHeld (s.reg x) with
  | none => raise (.skpVx x) .keyIndex ((s.reg x).setWidth 16) s
  | some held => .next (s.skipIf held)

/-- SKNP Vx (R171). -/
def execSknpVx (x : Nibble) (s : State) : Result :=
  match s.keyHeld (s.reg x) with
  | none => raise (.sknpVx x) .keyIndex ((s.reg x).setWidth 16) s
  | some held => .next (s.skipIf (!held))

/-- LD Vx, K executed from RUN (R172): a press resolves at once, a cancel cancels, no event suspends. -/
def State.waitForKey (s : State) (x : Nibble) : State :=
  match s.input.ev with
  | .press k => s.setReg x (zextKey k)
  | .cancel => { s with status := .cancelled }
  | .none => { s with status := .wait x }

/-- LD Vx, K (R172). -/
def execLdVxK (x : Nibble) (s : State) : Result := .next (s.waitForKey x)

/-- A Step in status `WAIT(x)` (R176): it fetches nothing. -/
def State.resumeWait (s : State) (x : Nibble) : State :=
  match s.input.ev with
  | .press k => { s.setReg x (zextKey k) with status := .run }
  | .cancel => { s with status := .cancelled }
  | .none => s

/-- LD Vx, DT (R177). -/
def execLdVxDt (x : Nibble) (s : State) : Result := .next (s.setReg x s.dt)

/-- LD DT, Vx (R178). -/
def execLdDtVx (x : Nibble) (s : State) : Result := .next { s with dt := s.reg x }

/-- LD ST, Vx (R179). -/
def execLdStVx (x : Nibble) (s : State) : Result := .next { s with st := s.reg x }

end Sys2Proof.Machine
end

