-- ==== Sys2Proof/Machine/RegisterArith.lean ====
section
/-! DEFINITION. Register load, arithmetic, logic (41_register_arith.md R100 to R112) and the random byte
(45_random.md R190). `PC` stays at `a + 2`; operands are read before any write (00_scope.md R7). -/

namespace Sys2Proof.Machine

/-- LD Vx, kk (R100). -/
def execLdVxKk (x : Nibble) (kk : Byte) (s : State) : Result := .next (s.setReg x kk)

/-- ADD Vx, kk (R101): no flag. -/
def execAddVxKk (x : Nibble) (kk : Byte) (s : State) : Result := .next (s.setReg x (s.reg x + kk))

/-- LD Vx, Vy (R102). -/
def execLdVxVy (x y : Nibble) (s : State) : Result := .next (s.setReg x (s.reg y))

/-- OR Vx, Vy (R103): no flag. -/
def execOrVxVy (x y : Nibble) (s : State) : Result := .next (s.setReg x (s.reg x ||| s.reg y))

/-- AND Vx, Vy (R104): no flag. -/
def execAndVxVy (x y : Nibble) (s : State) : Result := .next (s.setReg x (s.reg x &&& s.reg y))

/-- XOR Vx, Vy (R105): no flag. -/
def execXorVxVy (x y : Nibble) (s : State) : Result := .next (s.setReg x (s.reg x ^^^ s.reg y))

/-- ADD Vx, Vy (R108). -/
def execAddVxVy (x y : Nibble) (s : State) : Result :=
  .next (s.setRegFlag x (s.reg x + s.reg y) (carryOut (s.reg x) (s.reg y)))

/-- SUB Vx, Vy (R109). -/
def execSubVxVy (x y : Nibble) (s : State) : Result :=
  .next (s.setRegFlag x (s.reg x - s.reg y) (noBorrow (s.reg x) (s.reg y)))

/-- SHR Vx (R110): `V[x]` in place; the y field is ignored. -/
def execShrVx (x _y : Nibble) (s : State) : Result :=
  .next (s.setRegFlag x (s.reg x >>> 1) (shiftedOutRight (s.reg x)))

/-- SUBN Vx, Vy (R111). -/
def execSubnVxVy (x y : Nibble) (s : State) : Result :=
  .next (s.setRegFlag x (s.reg y - s.reg x) (noBorrow (s.reg y) (s.reg x)))

/-- SHL Vx (R112): `V[x]` in place; the y field is ignored. -/
def execShlVx (x _y : Nibble) (s : State) : Result :=
  .next (s.setRegFlag x (s.reg x <<< 1) (shiftedOutLeft (s.reg x)))

/-- RND Vx, kk (45_random.md R190): the Step's random byte, masked. -/
def execRndVxKk (x : Nibble) (kk : Byte) (s : State) : Result := .next (s.setReg x (s.input.rnd &&& kk))

end Sys2Proof.Machine
end

