-- ==== Sys2Proof/Machine/Cycle.lean ====
section
/-! DEFINITION. The Step by status: fetch, advance, decode, execute (30_encoding.md R63 to R65, R70), the held wait
(44_input_timers.md R176) and the halted statuses (60_exceptions.md R212). -/

namespace Sys2Proof.Machine

/-- Apply `f` to the next state, if there is one. -/
def onNext (f : State → State) : Result → Result
  | .next t => .next (f t)
  | .fault r => .fault r
  | .refused r => .refused r

/-- A Step in RUN, up to the using up of its inputs (R63): FETCH_BOUNDS leaves `PC` at `a` (R64); every later fault
leaves it at `a + 2` (R65). -/
def fetchAndExecute (s : State) : Result :=
  match s.fetchWord with
  | none => .next (s.takeFault .fetchBounds s.pc 0 s.pc)
  | some w =>
    match decode s.cfg.bnnnMode w with
    | .error _ => .next (s.advancePc.takeFault .unknownOpcode s.pc w 0)
    | .ok i => exec i s.advancePc

/-- A Step's effect in each status, up to the using up of its inputs. -/
def stepEffect (s : State) : Result :=
  match s.status with
  | .run => fetchAndExecute s
  | .wait x => .next (s.resumeWait x)
  | .cancelled => .next s
  | .faulted _ _ _ _ => .next s

end Sys2Proof.Machine
end

