-- ==== Sys2Proof/Machine/Step.lean ====
section
/-! DEFINITION. The host operation Step (60_exceptions.md R223) as the machine's one step, and the placing of a word
where the next Step fetches. -/

namespace Sys2Proof.Machine

/-- One Step: its effect, after which its inputs are used up (log 2). What it reports is the outcome of the status it
leaves (R200; log 13). -/
def step (s : State) : Host.Outcome State Fault Refusal := onNext State.consumeInput (stepEffect s)

/-- `s` with a table row's word where the next Step fetches (log 8). The fetch needs status RUN and a `PC` with two
bytes above it, so the status becomes RUN and a `PC` at or above 0xFFF becomes 0x200; at reset both hold already. -/
def State.withFetchWord (s : State) (nbits w : Nat) : State :=
  let t := { s with
    status := .run
    pc := if s.pc.toNat + 1 > 0xFFF then BitVec.ofNat 16 progBase else s.pc }
  t.placeWord (tableWord nbits w)

end Sys2Proof.Machine
end

