-- ==== Sys2Proof/Machine/HostOps.lean ====
section
/-! DEFINITION. The seven host operations (60_exceptions.md R223), each one atomic transition (00_scope.md R8), and
runs of them in any order (R226). -/

namespace Sys2Proof.Machine

/-- Store image bytes from `a` upward, dropping those above 0xFFF (20_memory.md R47). -/
def State.loadAt (s : State) (a : Nat) : List Byte → State
  | [] => s
  | b :: bs => State.loadAt (if a ≤ 0xFFF then s.writeByte a b else s) (a + 1) bs

/-- Load(image) (20_memory.md R47). -/
def State.load (s : State) (image : List Byte) : State := s.loadAt progBase image

/-- SetKeys(mask): `KEY[k] <- (mask[k] = 1)` for every k (60_exceptions.md R220). -/
def State.setKeys (s : State) (mask : Word) : State :=
  { s with keys := Vector.ofFn (fun k => mask.getLsbD k.val) }

/-- One timer's decrement, floored at zero (60_exceptions.md R215). -/
def countDown (t : Byte) : Byte := if t.toNat > 0 then t - 1 else t

/-- Tick (60_exceptions.md R215). -/
def State.tick (s : State) : State := { s with dt := countDown s.dt, st := countDown s.st }

/-- ReadFramebuffer (60_exceptions.md R222): the grid, row-major. -/
def State.readFramebuffer (s : State) : Framebuffer := s.fb

/-- ReadStatus (60_exceptions.md R223). -/
def State.readStatus (s : State) : Status := s.status

/-- The host announces the inputs of the next Step (log 2). -/
def State.announce (s : State) (inp : StepInput) : State := { s with inputs := inp :: s.inputs }

/-- Step with given inputs (60_exceptions.md R221): they are announced and used up by the Step. -/
def State.stepWith (s : State) (inp : StepInput) : Result := step (s.announce inp)

/-- A host operation (60_exceptions.md R223). -/
inductive HostOp where
  /-- Reset (R240) -/
  | reset
  /-- Load a program image (R47) -/
  | load (image : List Byte)
  /-- SetKeys (R220) -/
  | setKeys (mask : Word)
  /-- Step with its inputs `ev`, `rnd` (R221) -/
  | step (inp : StepInput)
  /-- Tick (R215) -/
  | tick
  /-- ReadFramebuffer (R222) -/
  | readFramebuffer
  /-- ReadStatus (R223) -/
  | readStatus
  deriving DecidableEq, Repr

/-- What a host operation answers to the host. -/
inductive HostReply where
  /-- no outcome other than completion -/
  | done
  /-- the outcome of a Step (R200) -/
  | outcome (o : StepOutcome)
  /-- the grid -/
  | framebuffer (fb : Framebuffer)
  /-- the status with its fault record -/
  | status (st : Status)
  deriving DecidableEq, Repr

/-- The state a host operation leaves (R223). -/
def HostOp.perform : HostOp → State → Result
  | .reset, s => .next s.hostReset
  | .load image, s => .next (s.load image)
  | .setKeys mask, s => .next (s.setKeys mask)
  | .step inp, s => s.stepWith inp
  | .tick, s => .next s.tick
  | .readFramebuffer, s => .next s
  | .readStatus, s => .next s

/-- What a host operation answers, given the state it leaves (R200, R222, R223). -/
def HostOp.reply : HostOp → State → HostReply
  | .reset, _ => .done
  | .load _, _ => .done
  | .setKeys _, _ => .done
  | .step _, t => .outcome t.status.outcome
  | .tick, _ => .done
  | .readFramebuffer, t => .framebuffer t.readFramebuffer
  | .readStatus, t => .status t.readStatus

/-- A host's schedule of operations, one after the other (R226). -/
def runHost : List HostOp → State → Result
  | [], s => .next s
  | op :: ops, s =>
    match op.perform s with
    | .next t => runHost ops t
    | .fault r => .fault r
    | .refused r => .refused r

end Sys2Proof.Machine
end

