-- ==== Sys2Proof/Safety.lean ====
section
/-! DEFINITION. The terms the claims are stated in: the invariant of a run, what an instruction leaves unchanged, and
the spec's tables as functions written apart from the meanings (30_encoding.md R70, 60_exceptions.md R202,
10_state.md R11, 43_graphics.md R150). -/

namespace Sys2Proof.Machine

section Invariant

/-- The largest `PC` a Step can leave (10_state.md R16). -/
def pcLimit : BnnnMode → Nat
  | .unknown => 0x1002
  | .jumpV0 => 0x10FE

/-- What every run of host operations keeps: memory in canonical form, every stack entry the address after some CALL,
and `PC` within R16's bound. -/
structure State.Inv (s : State) : Prop where
  /-- memory is in canonical form -/
  mem_wf : s.mem.wf s.cfg = true
  /-- a return address is `a + 2` of a fetched CALL, so at most 0x1000 (R64, R83) -/
  returns : ∀ j (h : j < 16), (s.stack[j]'h).toNat ≤ 0x1000
  /-- R16 -/
  pc_le : s.pc.toNat ≤ pcLimit s.cfg.bnnnMode

/-- The run has ended (60_exceptions.md R228): no Step changes the machine any more. -/
def Status.halted : Status → Bool
  | .run => false
  | .wait _ => false
  | .cancelled => true
  | .faulted _ _ _ _ => true

/-- Every piece of the spec's state has its reset value (10_state.md R33), for the parameters the state carries. -/
structure isResetState (t : State) : Prop where
  /-- V, the index register and the timers -/
  regs : (∀ r, t.reg r = 0) ∧ t.i = 0 ∧ t.dt = 0 ∧ t.st = 0
  /-- the program counter -/
  pc : t.pc = 0x200#16
  /-- the stack is empty and its entries are zero -/
  stack : t.sp.val = 0 ∧ ∀ j (h : j < 16), t.stack[j] = 0
  /-- all 2048 pixels are off -/
  fb : ∀ py px, py < 32 → px < 64 → pixel t.fb py px = false
  /-- no key is held -/
  keys : ∀ k (h : k < 16), t.keys[k] = false
  /-- the font at FONT_BASE -/
  font : ∀ k (h : k < 80), t.readByte (t.cfg.fontBase.val + k) = t.cfg.fontData[k]
  /-- every other byte is zero -/
  zeros : ∀ a, a < t.cfg.fontBase.val ∨ t.cfg.fontBase.val + 80 ≤ a → t.readByte a = 0
  /-- the status -/
  status : t.status = .run

end Invariant

section Frames

/-- The parts of the spec's state (10_state.md). -/
inductive Part where
  | regs | index | pc | stack | dt | st | fb | keys | mem | status
  deriving DecidableEq, Repr

/-- A part reads the same in two states; memory through the read of one byte, at every address. -/
def Part.same : Part → State → State → Prop
  | .regs, s, t => ∀ r, t.reg r = s.reg r
  | .index, s, t => t.i = s.i
  | .pc, s, t => t.pc = s.pc
  | .stack, s, t => t.stack = s.stack ∧ t.sp = s.sp
  | .dt, s, t => t.dt = s.dt
  | .st, s, t => t.st = s.st
  | .fb, s, t => t.fb = s.fb
  | .keys, s, t => t.keys = s.keys
  | .mem, s, t => ∀ a, t.readByte a = s.readByte a
  | .status, s, t => t.status = s.status

/-- From `s` to `t` at most the parts `ps` change; the parameters and the announced inputs never do. -/
structure ChangesOnly (ps : List Part) (s t : State) : Prop where
  /-- every other part reads as before -/
  parts : ∀ p, p ∉ ps → p.same s t
  /-- the parameters stay -/
  cfg : t.cfg = s.cfg
  /-- an instruction does not use up inputs; the end of the Step does -/
  inputs : t.inputs = s.inputs ∧ t.draws = s.draws

/-- Every register but those of `rs` is unchanged. -/
def RegsExcept (rs : List Nibble) (s t : State) : Prop := ∀ r, r ∉ rs → t.reg r = s.reg r

/-- The parts an instruction may change, a fault it may raise included. -/
def mayWrite : Instr → List Part
  | .cls => [.fb]
  | .ret | .call _ => [.pc, .stack, .status]
  | .jp _ => [.pc]
  | .seVxKk _ _ | .sneVxKk _ _ | .seVxVy _ _ | .sneVxVy _ _ => [.pc]
  | .ldVxKk _ _ | .addVxKk _ _ | .ldVxVy _ _ | .orVxVy _ _ | .andVxVy _ _ | .xorVxVy _ _ => [.regs]
  | .addVxVy _ _ | .subVxVy _ _ | .shrVx _ _ | .subnVxVy _ _ | .shlVx _ _ => [.regs]
  | .rndVxKk _ _ | .ldVxDt _ => [.regs]
  | .ldINnn _ | .addIVx _ | .ldFVx _ => [.index]
  | .jpV0Nnn _ => [.pc, .status]
  | .drwVxVyN _ _ _ => [.regs, .fb, .status]
  | .skpVx _ | .sknpVx _ => [.pc, .status]
  | .ldVxK _ => [.regs, .status]
  | .ldDtVx _ => [.dt]
  | .ldStVx _ => [.st]
  | .ldBVx _ | .ldMemIVx _ => [.mem, .status]
  | .ldVxMemI _ => [.regs, .status]

/-- The instructions that write VF as a flag: 8XY4, 8XY5, 8XY6, 8XY7, 8XYE, DXYN (10_state.md R11). -/
def writesFlag : Instr → Bool
  | .addVxVy _ _ | .subVxVy _ _ | .shrVx _ _ | .subnVxVy _ _ | .shlVx _ _ | .drwVxVyN _ _ _ => true
  | .cls | .ret | .jp _ | .call _ | .jpV0Nnn _ | .ldINnn _ => false
  | .seVxKk _ _ | .sneVxKk _ _ | .seVxVy _ _ | .sneVxVy _ _ => false
  | .ldVxKk _ _ | .addVxKk _ _ | .ldVxVy _ _ | .orVxVy _ _ | .andVxVy _ _ | .xorVxVy _ _ => false
  | .rndVxKk _ _ | .skpVx _ | .sknpVx _ | .ldVxDt _ | .ldVxK _ | .ldDtVx _ | .ldStVx _ => false
  | .addIVx _ | .ldFVx _ | .ldBVx _ | .ldMemIVx _ | .ldVxMemI _ => false

/-- The register an instruction names as its destination, if it has one; FX65's last one (10_state.md R11). -/
def destination : Instr → Option Nibble
  | .ldVxKk x _ | .addVxKk x _ | .ldVxVy x _ | .orVxVy x _ | .andVxVy x _ | .xorVxVy x _ => some x
  | .addVxVy x _ | .subVxVy x _ | .shrVx x _ | .subnVxVy x _ | .shlVx x _ => some x
  | .rndVxKk x _ | .ldVxDt x | .ldVxK x | .ldVxMemI x => some x
  | .cls | .ret | .jp _ | .call _ | .jpV0Nnn _ | .ldINnn _ => none
  | .seVxKk _ _ | .sneVxKk _ _ | .seVxVy _ _ | .sneVxVy _ _ => none
  | .drwVxVyN _ _ _ | .skpVx _ | .sknpVx _ | .ldDtVx _ | .ldStVx _ => none
  | .addIVx _ | .ldFVx _ | .ldBVx _ | .ldMemIVx _ => none

end Frames

section Tables

/-- The word decodes to the instruction, whatever BNNN_MODE is. -/
def EncodedAs (w : Word) (i : Instr) : Prop := ∀ m, decode m w = .ok i

/-- The complete illegal set of 30_encoding.md R70, on the word's number. -/
def illegalWord (m : BnnnMode) (w : Word) : Prop :=
  let op := w.toNat / 4096
  let n := w.toNat % 16
  let kk := w.toNat % 256
  (op = 0x0 ∧ w ≠ 0x00E0#16 ∧ w ≠ 0x00EE#16) ∨
  (op = 0x5 ∧ n ≠ 0) ∨
  (op = 0x8 ∧ n ∈ [0x8, 0x9, 0xA, 0xB, 0xC, 0xD, 0xF]) ∨
  (op = 0x9 ∧ n ≠ 0) ∨
  (op = 0xB ∧ m = .unknown) ∨
  (op = 0xE ∧ kk ∉ [0x9E, 0xA1]) ∨
  (op = 0xF ∧ kk ∉ [0x07, 0x0A, 0x15, 0x18, 0x1E, 0x29, 0x33, 0x55, 0x65])

/-- `info` of MEM_BOUNDS (60_exceptions.md R202). -/
def boundsInfo (s : State) : Word := BitVec.ofNat 16 (max s.i.toNat 0x1000)

/-- The fault an instruction raises in the execute phase, with its `info`: the rows of 60_exceptions.md R202, and
R88's for Bnnn. -/
def faultOf (i : Instr) (s : State) : Option (FaultCause × Word) :=
  match i with
  | .ret => if s.sp.val = 0 then some (.stackUnderflow, 0) else none
  | .call _ => if s.sp.val = 16 then some (.stackOverflow, 0) else none
  | .jpV0Nnn _ => if s.cfg.bnnnMode = .unknown then some (.unknownOpcode, 0) else none
  | .drwVxVyN _ y n =>
    let h := min n.toNat (32 - (s.reg y).toNat % 32)
    if h > 0 ∧ s.i.toNat + h - 1 > 0xFFF then some (.memBounds, boundsInfo s) else none
  | .skpVx x | .sknpVx x =>
    if (s.reg x).toNat > 15 then some (.keyIndex, BitVec.ofNat 16 (s.reg x).toNat) else none
  | .ldBVx _ => if s.i.toNat + 2 > 0xFFF then some (.memBounds, boundsInfo s) else none
  | .ldMemIVx x | .ldVxMemI x =>
    if s.i.toNat + x.toNat > 0xFFF then some (.memBounds, boundsInfo s) else none
  | .cls | .jp _ | .ldINnn _ => none
  | .seVxKk _ _ | .sneVxKk _ _ | .seVxVy _ _ | .sneVxVy _ _ => none
  | .ldVxKk _ _ | .addVxKk _ _ | .ldVxVy _ _ | .orVxVy _ _ | .andVxVy _ _ | .xorVxVy _ _ => none
  | .addVxVy _ _ | .subVxVy _ _ | .shrVx _ _ | .subnVxVy _ _ | .shlVx _ _ | .rndVxKk _ _ => none
  | .ldVxDt _ | .ldVxK _ | .ldDtVx _ | .ldStVx _ | .addIVx _ | .ldFVx _ => none

/-- The fault a Step in RUN raises, in the order of the checks (60_exceptions.md R209): the fetch, the decoding, the
instruction's own. -/
def stepFaultOf (s : State) : Option (FaultCause × Word) :=
  match s.fetchWord with
  | none => some (.fetchBounds, s.pc)
  | some w =>
    match decode s.cfg.bnnnMode w with
    | .error _ => some (.unknownOpcode, 0)
    | .ok i => faultOf i s.advancePc

/-- Whether the condition of a skip holds; `none` for an instruction that is no skip, and for a key skip whose register
names no key (40_control_flow.md R84 to R87, 44_input_timers.md R170, R171). -/
def skipCondition (i : Instr) (s : State) : Option Bool :=
  match i with
  | .seVxKk x kk => some (decide ((s.reg x).toNat = kk.toNat))
  | .sneVxKk x kk => some (decide ((s.reg x).toNat ≠ kk.toNat))
  | .seVxVy x y => some (decide ((s.reg x).toNat = (s.reg y).toNat))
  | .sneVxVy x y => some (decide ((s.reg x).toNat ≠ (s.reg y).toNat))
  | .skpVx x => if h : (s.reg x).toNat < 16 then some (s.keys[(s.reg x).toNat] == true) else none
  | .sknpVx x => if h : (s.reg x).toNat < 16 then some (s.keys[(s.reg x).toNat] == false) else none
  | .cls | .ret | .jp _ | .call _ | .jpV0Nnn _ | .ldINnn _ => none
  | .ldVxKk _ _ | .addVxKk _ _ | .ldVxVy _ _ | .orVxVy _ _ | .andVxVy _ _ | .xorVxVy _ _ => none
  | .addVxVy _ _ | .subVxVy _ _ | .shrVx _ _ | .subnVxVy _ _ | .shlVx _ _ | .rndVxKk _ _ => none
  | .drwVxVyN _ _ _ | .ldVxDt _ | .ldVxK _ | .ldDtVx _ | .ldStVx _ => none
  | .addIVx _ | .ldFVx _ | .ldBVx _ | .ldMemIVx _ | .ldVxMemI _ => none

/-- A Step of `s` fetches and decodes the instruction `i`. -/
def Fetches (s : State) (i : Instr) : Prop :=
  s.status = .run ∧ ∃ w, s.fetchWord = some w ∧ decode s.cfg.bnnnMode w = .ok i

end Tables

section Sprites

/-- DRW flips the pixel of row `py`, column `px`: it lies on a sprite row, in one of the eight columns from the
origin, wrapping at the right edge, and the sprite has a 1 bit there (43_graphics.md R150 to R155). -/
def spriteBit (s : State) (x y n : Nibble) (py px : Nat) : Bool :=
  let x0 := (s.reg x).toNat % 64
  let y0 := (s.reg y).toNat % 32
  let c := (px + 64 - x0) % 64
  decide (y0 ≤ py) && decide (py < y0 + n.toNat) && decide (c < 8) &&
    (s.readByte (s.i.toNat + (py - y0))).getLsbD (7 - c)

/-- The sprite flips at least one pixel. -/
def spriteFlips (s : State) (x y n : Nibble) : Prop :=
  ∃ py px, py < 32 ∧ px < 64 ∧ spriteBit s x y n py px = true

/-- The sprite turns at least one pixel on: it flips one that is off. -/
def spriteTurnsOn (s : State) (x y n : Nibble) : Prop :=
  ∃ py px, py < 32 ∧ px < 64 ∧ spriteBit s x y n py px = true ∧ pixel s.fb py px = false

/-- The sprite turns at least one pixel off (43_graphics.md R154). -/
def spriteCollides (s : State) (x y n : Nibble) : Prop :=
  ∃ py px, py < 32 ∧ px < 64 ∧ spriteBit s x y n py px = true ∧ pixel s.fb py px = true

end Sprites

end Sys2Proof.Machine
end

