-- ==== Sys2Proof/Certificates/Slice0/Obligations.lean ====
section
/-! DEFINITION. The statements about this core, from the numbered rules of spec/. Titles, bases and citations are in
OBLIGATIONS.json. An instruction's statement is about `exec`, which is entered with `PC = a + 2` (10_state.md R14). -/

open Sys2Proof Sys2Proof.Machine

section Encoding

/-- 30_encoding.md R66, whole table: the word of a legal instruction decodes to it, at every operand value. -/
def Obligations.DecodeInvertsEncode : Prop :=
  ∀ (m : BnnnMode) (i : Instr), i.wellFormed m = true → decode m (encode i) = .ok i

/-- A decoded word is the word of its instruction, which is legal: no bit of a word is dropped. -/
def Obligations.EncodeInvertsDecode : Prop :=
  ∀ (m : BnnnMode) (w : Word) (i : Instr), decode m w = .ok i → encode i = w ∧ i.wellFormed m = true

/-- R66: a word decodes to an instruction of a row exactly when `word & mask` is that row's `match` (for Bnnn: and
BNNN_MODE admits it); since decoding gives one instruction, rows do not overlap. -/
def Obligations.DecodingFollowsMaskAndMatch : Prop :=
  ∀ (m : BnnnMode) (w : Word) (j : Instr), j.wellFormed m = true →
    ((∃ i, decode m w = .ok i ∧ i.mask = j.mask ∧ i.pattern = j.pattern) ↔ w &&& j.mask = j.pattern)

/-- R67, R68, R69, R71: a word is unknown exactly when it is in the listed illegal set. -/
def Obligations.UnknownWordsAreTheListedOnes : Prop :=
  ∀ (m : BnnnMode) (w : Word), (∃ e, decode m w = .error e) ↔ illegalWord m w

/-- The opcode table's numbering: the number of every instruction's word decodes to it (BNNN_MODE = JumpV0, the
model's choice for the table, log 5). -/
def Obligations.TableNumbersDecode : Prop :=
  ∀ i : Instr, decodeTableWord 16 (encode i).toNat = some i

/-- One word of each family, written out bit by bit from R61 and R66. -/
def Obligations.WrittenOutWordsDecode : Prop :=
  (∀ m, decode m 0b0000000011101110#16 = .ok .ret) ∧
  (∀ m, decode m 0b0001001000110100#16 = .ok (.jp 0x234#12)) ∧
  (∀ m, decode m 0b0110101000000101#16 = .ok (.ldVxKk 0xA#4 0x05#8)) ∧
  (∀ m, decode m 0b0111101000000011#16 = .ok (.addVxKk 0xA#4 0x03#8)) ∧
  (∀ m, decode m 0b1000000100100111#16 = .ok (.subnVxVy 0x1#4 0x2#4)) ∧
  (∀ m, decode m 0b1101000000010011#16 = .ok (.drwVxVyN 0x0#4 0x1#4 0x3#4)) ∧
  (∀ m, decode m 0b1110000110011110#16 = .ok (.skpVx 0x1#4)) ∧
  (∀ m, decode m 0b1111010101010101#16 = .ok (.ldMemIVx 0x5#4))

end Encoding

section Steps

/-- R63, R64: a Step in RUN faults at once where the fetch would leave the space; otherwise it fetches big-endian,
advances `PC` by 2, and faults on an unknown word or executes the decoded instruction; then its inputs are used up (the
model's own fields, log 2). -/
def Obligations.StepFetchesDecodesAndExecutes : Prop :=
  ∀ s : State, s.status = .run →
    (s.pc.toNat + 1 > 0xFFF →
      step s = .next (s.takeFault .fetchBounds s.pc 0 s.pc).consumeInput) ∧
    (s.pc.toNat + 1 ≤ 0xFFF →
      let w : Word := s.readByte s.pc.toNat ++ s.readByte (s.pc.toNat + 1)
      (∀ e, decode s.cfg.bnnnMode w = .error e →
        step s = .next ({ s with pc := s.pc + 2 }.takeFault .unknownOpcode s.pc w 0).consumeInput) ∧
      (∀ i, decode s.cfg.bnnnMode w = .ok i →
        ∃ t, exec i { s with pc := s.pc + 2 } = .next t ∧ step s = .next t.consumeInput))

/-- R70, R203: an illegal word is never ignored; the Step faults UNKNOWN_OPCODE with the word's address, the word and
info 0, and the next Step leaves that status. -/
def Obligations.IllegalWordFaultsTheProgram : Prop :=
  ∀ (s : State) (w : Word), s.status = .run → s.fetchWord = some w → illegalWord s.cfg.bnnnMode w →
    ∃ t, step s = .next t ∧ t.status = .faulted .unknownOpcode s.pc w 0 ∧
      t.status.outcome = .fault .unknownOpcode ∧ t.pc = s.pc + 2 ∧
      ∃ u, step t = .next u ∧ u.status = t.status

/-- R200: every Step answers, with exactly one outcome, and the status after it is the one the outcome names. -/
def Obligations.EveryStepReportsOneOutcome : Prop :=
  ∀ s : State, ∃ t, step s = .next t ∧
    (t.status.outcome = .ok ↔ t.status = .run) ∧
    (t.status.outcome = .waiting ↔ ∃ x, t.status = .wait x) ∧
    (t.status.outcome = .cancelled ↔ t.status = .cancelled) ∧
    (∀ c, t.status.outcome = .fault c ↔ ∃ a w n, t.status = .faulted c a w n)

/-- R212: a Step in FAULTED or CANCELLED changes nothing of the spec's state and reports the same outcome. -/
def Obligations.HaltedStepChangesNothing : Prop :=
  ∀ s : State, s.status.halted = true →
    ∃ t, step s = .next t ∧ t = { s with inputs := t.inputs, draws := t.draws } ∧
      t.status.outcome = s.status.outcome

/-- R228: from a halted status on, Steps with whatever inputs change nothing of the spec's state; `draws`, the model's
own count of Steps, goes on (log 2). -/
def Obligations.HaltedRunsStayHalted : Prop :=
  ∀ (s : State) (inps : List StepInput), s.status.halted = true →
    runHost (inps.map .step) s = .next { s with draws := s.draws + inps.length }

/-- R176: a Step in WAIT(x) fetches nothing; a press writes `V[x]` and resumes, a cancel cancels, no event changes
nothing; Tick, SetKeys, Load and Reset still act. -/
def Obligations.WaitingStepFollowsItsEvent : Prop :=
  ∀ (s : State) (x : Nibble), s.status = .wait x →
    (∀ k rnd, ∃ t, s.stepWith ⟨.press k, rnd⟩ = .next t ∧ (t.reg x).toNat = k.toNat ∧ t.status = .run ∧
      t.status.outcome = .ok ∧ RegsExcept [x] s t ∧
      t = { s with v := t.v, status := .run, draws := t.draws }) ∧
    (∀ rnd, ∃ t, s.stepWith ⟨.cancel, rnd⟩ = .next t ∧ t.status.outcome = .cancelled ∧
      t = { s with status := .cancelled, draws := t.draws }) ∧
    (∀ rnd, ∃ t, s.stepWith ⟨.none, rnd⟩ = .next t ∧ t.status.outcome = .waiting ∧
      t = { s with draws := t.draws }) ∧
    (∃ t, HostOp.tick.perform s = .next t ∧ t.dt.toNat = s.dt.toNat - 1 ∧ t.st.toNat = s.st.toNat - 1 ∧
      t.status = .wait x) ∧
    (∀ mask, ∃ t, (HostOp.setKeys mask).perform s = .next t ∧
      (∀ k (h : k < 16), t.keys[k] = mask.getLsbD k) ∧ t.status = .wait x) ∧
    (∀ image, ∃ t, (HostOp.load image).perform s = .next t ∧ t.status = .wait x) ∧
    (∃ t, HostOp.reset.perform s = .next t ∧ t.status = .run)

/-- A skip whose condition holds passes over one word, whatever that word or its address is: the Step leaves `PC` at
`a + 4`; one whose condition fails leaves it at `a + 2`. Either way nothing else changes, VF included, but the model's
own input fields (log 2). The spec marks R80, which says so, as its inference from R63. -/
def Obligations.SkipsPassOverOneWord : Prop :=
  ∀ (s : State) (i : Instr) (holds : Bool), Fetches s i → skipCondition i s.advancePc = some holds →
    ∃ t, step s = .next t ∧ t.status = .run ∧
      t.pc.toNat = (s.pc.toNat + if holds = true then 4 else 2) % 65536 ∧
      t = { s with pc := t.pc, inputs := t.inputs, draws := t.draws }

/-- R221: a Step ignores `ev` unless it executes FX0A or the status is WAIT, and ignores `rnd` unless it executes
CXKK. -/
def Obligations.InputsMatterOnlyWhereRead : Prop :=
  ∀ s : State,
    ((∀ x, s.status ≠ .wait x) → (∀ x, ¬ Fetches s (.ldVxK x)) →
      ∀ ev ev' rnd, s.stepWith ⟨ev, rnd⟩ = s.stepWith ⟨ev', rnd⟩) ∧
    ((∀ x kk, ¬ Fetches s (.rndVxKk x kk)) →
      ∀ ev rnd rnd', s.stepWith ⟨ev, rnd⟩ = s.stepWith ⟨ev, rnd'⟩)

end Steps

section Faults

/-- R201: a Step that faults records cause, address and word, leaves `PC` at `a + 2` (`a` for FETCH_BOUNDS), changes
nothing else of the spec's state, and the next Step leaves the status. -/
def Obligations.FaultsArePreciseAndStay : Prop :=
  ∀ (s t : State) (c : FaultCause) (a w info : Word),
    s.status = .run → step s = .next t → t.status = .faulted c a w info →
      a = s.pc ∧
      (c = .fetchBounds → w = 0) ∧ (c ≠ .fetchBounds → s.fetchWord = some w) ∧
      t = { s with
        status := .faulted c a w info
        pc := if c = .fetchBounds then s.pc else s.pc + 2
        inputs := t.inputs
        draws := t.draws } ∧
      t.status.outcome = .fault c ∧
      ∀ u, step t = .next u → u.status = t.status

/-- R202: a Step in RUN faults exactly where the table of causes says, with the table's info, the fetch checked before
the word and the word before the instruction's own condition; the codes are 1 to 6. -/
def Obligations.FaultsAreThoseOfTheTable : Prop :=
  (∀ s : State, s.status = .run →
    ∃ t, step s = .next t ∧
      match stepFaultOf s with
      | some (c, info) => ∃ w, t.status = .faulted c s.pc w info
      | none => t.status = .run ∨ t.status = .cancelled ∨ ∃ x, t.status = .wait x) ∧
  FaultCause.unknownOpcode.code = 1 ∧ FaultCause.fetchBounds.code = 2 ∧ FaultCause.memBounds.code = 3 ∧
  FaultCause.stackOverflow.code = 4 ∧ FaultCause.stackUnderflow.code = 5 ∧ FaultCause.keyIndex.code = 6

/-- R211, R30: CANCELLED and FAULTED are left only by Reset. -/
def Obligations.OnlyResetLeavesAHaltedStatus : Prop :=
  ∀ (op : HostOp) (s t : State), s.status.halted = true → op.perform s = .next t →
    t.status = s.status ∨ (op = .reset ∧ t.status = .run)

end Faults

section Invariants

/-- Every Step keeps memory in canonical form (log 7), every return address at most 0x1000 and `PC` within the bound of
R16, which the spec marks as its inference. -/
def Obligations.StepKeepsTheBoundsAndMemoryForm : Prop :=
  ∀ s t : State, s.Inv → step s = .next t → t.Inv

/-- The state after reset meets the invariant, under every value of the parameters. -/
def Obligations.ResetMeetsTheBoundsAndMemoryForm : Prop :=
  (∀ cfg : Config, (State.resetWith cfg).Inv) ∧ State.reset.Inv

/-- R226: every schedule of host operations completes, and from a state that meets the invariant it ends in one. -/
def Obligations.EveryScheduleCompletesWithinBounds : Prop :=
  ∀ (ops : List HostOp) (s : State), ∃ t, runHost ops s = .next t ∧ (s.Inv → t.Inv)

/-- R13, R15, R17, R19 to R22: the parts of the state each instruction may change; all others, the parameters and the
announced inputs stay. -/
def Obligations.InstructionsWriteOnlyTheirParts : Prop :=
  ∀ (i : Instr) (s t : State), exec i s = .next t → ChangesOnly (mayWrite i) s t

/-- R11: an instruction that neither writes VF as a flag nor names VF as its destination leaves VF alone. -/
def Obligations.OnlyFlagWritersOrDestinationsChangeVF : Prop :=
  ∀ (i : Instr) (s t : State), exec i s = .next t → writesFlag i = false → destination i ≠ some vf →
    t.reg vf = s.reg vf

/-- (R247, the spec's inference from R215 and R220.) DT changes only at Tick, at Reset and at an executed FX15, ST only at Tick, at Reset and at an executed FX18,
the keys only at SetKeys and at Reset. -/
def Obligations.TimersAndKeysChangeOnlyWhereNamed : Prop :=
  ∀ (op : HostOp) (s t : State), op.perform s = .next t →
    (t.dt ≠ s.dt → op = .tick ∨ op = .reset ∨ ∃ inp x, op = .step inp ∧ Fetches s (.ldDtVx x)) ∧
    (t.st ≠ s.st → op = .tick ∨ op = .reset ∨ ∃ inp x, op = .step inp ∧ Fetches s (.ldStVx x)) ∧
    (t.keys ≠ s.keys → op = .reset ∨ ∃ mask, op = .setKeys mask)

end Invariants

section Memory

/-- R42, R43: after a byte is written its address reads as that byte, and every other address as before; every
in-range address can be written. -/
def Obligations.WrittenByteIsReadBack : Prop :=
  ∀ (s : State) (a : Nat) (b : Byte), s.mem.wf s.cfg = true → a ≤ 0xFFF →
    (s.writeByte a b).readByte a = b ∧
    (∀ a', a' ≠ a → (s.writeByte a b).readByte a' = s.readByte a') ∧
    (s.writeByte a b).mem.wf s.cfg = true

/-- A word stored by FX55, by FX33 or by Load is what the next fetch at its address reads. The spec marks R52, which says
so, as its inference. -/
def Obligations.StoredBytesAreFetched : Prop :=
  ∀ s : State, s.mem.wf s.cfg = true →
    (∀ x t, 1 ≤ x.toNat → s.i.toNat + x.toNat ≤ 0xFFF → exec (.ldMemIVx x) s = .next t →
      { t with pc := s.i }.fetchWord = some (s.reg 0x0#4 ++ s.reg 0x1#4)) ∧
    (∀ x t, s.i.toNat + 2 ≤ 0xFFF → exec (.ldBVx x) s = .next t →
      { t with pc := s.i }.fetchWord =
        some (BitVec.ofNat 8 ((s.reg x).toNat / 100) ++ BitVec.ofNat 8 ((s.reg x).toNat / 10 % 10))) ∧
    (∀ hi lo t, (HostOp.load [hi, lo]).perform s = .next t →
      { t with pc := 0x200#16 }.fetchWord = some (hi ++ lo))

end Memory

section ControlFlow

/-- R81: RET pops the return address into `PC`, keeping the entry; on an empty stack it faults. -/
def Obligations.ReturnPopsIntoPC : Prop :=
  EncodedAs 0x00EE#16 .ret ∧
  ∀ s : State,
    (∀ h : 0 < s.sp.val, ∃ t, exec .ret s = .next t ∧ t.sp.val = s.sp.val - 1 ∧
      t.pc = s.stack[s.sp.val - 1]'(by omega) ∧ t.stack = s.stack ∧ ChangesOnly [.pc, .stack] s t) ∧
    (s.sp.val = 0 → exec .ret s = .next (s.takeFault .stackUnderflow (s.pc - 2) 0x00EE#16 0))

/-- R82: JP sets `PC` to its 12-bit target. -/
def Obligations.JumpSetsPC : Prop :=
  ∀ (nnn : Addr12) (s : State),
    EncodedAs (0x1#4 ++ nnn) (.jp nnn) ∧
    ∃ t, exec (.jp nnn) s = .next t ∧ t.pc.toNat = nnn.toNat ∧ ChangesOnly [.pc] s t

/-- R83: CALL pushes `a + 2` and jumps; with 16 entries in use it faults; RET from any state with the stack CALL left
gives back the `PC` after CALL's own fetch and the stack pointer before CALL. -/
def Obligations.CallPushesAndReturnUndoes : Prop :=
  ∀ (nnn : Addr12) (s : State),
    EncodedAs (0x2#4 ++ nnn) (.call nnn) ∧
    (s.sp.val < 16 → ∃ t, exec (.call nnn) s = .next t ∧
      t.sp.val = s.sp.val + 1 ∧
      (∀ j (h : j < 16), t.stack[j] = if j = s.sp.val then s.pc else s.stack[j]) ∧
      t.pc.toNat = nnn.toNat ∧ ChangesOnly [.pc, .stack] s t ∧
      ∀ r : State, r.stack = t.stack → r.sp = t.sp →
        ∃ u, exec .ret r = .next u ∧ u.pc = s.pc ∧ u.sp = s.sp) ∧
    (s.sp.val = 16 → exec (.call nnn) s = .next (s.takeFault .stackOverflow (s.pc - 2) (0x2#4 ++ nnn) 0))

/-- R84, R85: the skips on a register and an immediate. -/
def Obligations.ImmediateSkipsCompare : Prop :=
  ∀ (x : Nibble) (kk : Byte) (s : State),
    EncodedAs (0x3#4 ++ x ++ kk) (.seVxKk x kk) ∧ EncodedAs (0x4#4 ++ x ++ kk) (.sneVxKk x kk) ∧
    (∃ t, exec (.seVxKk x kk) s = .next t ∧ ChangesOnly [.pc] s t ∧
      t.pc.toNat = if (s.reg x).toNat = kk.toNat then (s.pc.toNat + 2) % 65536 else s.pc.toNat) ∧
    (∃ t, exec (.sneVxKk x kk) s = .next t ∧ ChangesOnly [.pc] s t ∧
      t.pc.toNat = if (s.reg x).toNat ≠ kk.toNat then (s.pc.toNat + 2) % 65536 else s.pc.toNat)

/-- R86, R87: the skips on two registers. -/
def Obligations.RegisterSkipsCompare : Prop :=
  ∀ (x y : Nibble) (s : State),
    EncodedAs (0x5#4 ++ x ++ y ++ 0x0#4) (.seVxVy x y) ∧ EncodedAs (0x9#4 ++ x ++ y ++ 0x0#4) (.sneVxVy x y) ∧
    (∃ t, exec (.seVxVy x y) s = .next t ∧ ChangesOnly [.pc] s t ∧
      t.pc.toNat = if (s.reg x).toNat = (s.reg y).toNat then (s.pc.toNat + 2) % 65536 else s.pc.toNat) ∧
    (∃ t, exec (.sneVxVy x y) s = .next t ∧ ChangesOnly [.pc] s t ∧
      t.pc.toNat = if (s.reg x).toNat ≠ (s.reg y).toNat then (s.pc.toNat + 2) % 65536 else s.pc.toNat)

/-- R88: under JumpV0, Bnnn jumps to the exact sum of `nnn` and V0; under Unknown the word is illegal and the Step
faults. -/
def Obligations.JumpWithOffsetFollowsItsMode : Prop :=
  ∀ (nnn : Addr12) (s : State),
    decode .jumpV0 (0xB#4 ++ nnn) = .ok (.jpV0Nnn nnn) ∧
    (∃ e, decode .unknown (0xB#4 ++ nnn) = .error e) ∧
    (s.cfg.bnnnMode = .jumpV0 → ∃ t, exec (.jpV0Nnn nnn) s = .next t ∧
      t.pc.toNat = nnn.toNat + (s.reg 0x0#4).toNat ∧ ChangesOnly [.pc] s t) ∧
    (s.cfg.bnnnMode = .unknown → s.status = .run → s.fetchWord = some (0xB#4 ++ nnn) →
      ∃ t, step s = .next t ∧ t.status = .faulted .unknownOpcode s.pc (0xB#4 ++ nnn) 0)

end ControlFlow

section Arithmetic

/-- R100: LD Vx, kk. -/
def Obligations.LoadImmediateWritesTheRegister : Prop :=
  ∀ (x : Nibble) (kk : Byte) (s : State),
    EncodedAs (0x6#4 ++ x ++ kk) (.ldVxKk x kk) ∧
    ∃ t, exec (.ldVxKk x kk) s = .next t ∧ t.reg x = kk ∧ RegsExcept [x] s t ∧ ChangesOnly [.regs] s t

/-- R101: ADD Vx, kk wraps modulo 256 and writes no flag. -/
def Obligations.AddImmediateWrapsWithoutFlag : Prop :=
  ∀ (x : Nibble) (kk : Byte) (s : State),
    EncodedAs (0x7#4 ++ x ++ kk) (.addVxKk x kk) ∧
    ∃ t, exec (.addVxKk x kk) s = .next t ∧
      (t.reg x).toNat = ((s.reg x).toNat + kk.toNat) % 256 ∧ RegsExcept [x] s t ∧ ChangesOnly [.regs] s t

/-- R102 to R105: copy, OR, AND and XOR, bit by bit; no flag. -/
def Obligations.CopyAndLogicWriteNoFlag : Prop :=
  ∀ (x y : Nibble) (s : State),
    EncodedAs (0x8#4 ++ x ++ y ++ 0x0#4) (.ldVxVy x y) ∧ EncodedAs (0x8#4 ++ x ++ y ++ 0x1#4) (.orVxVy x y) ∧
    EncodedAs (0x8#4 ++ x ++ y ++ 0x2#4) (.andVxVy x y) ∧ EncodedAs (0x8#4 ++ x ++ y ++ 0x3#4) (.xorVxVy x y) ∧
    (∃ t, exec (.ldVxVy x y) s = .next t ∧ t.reg x = s.reg y ∧ RegsExcept [x] s t ∧ ChangesOnly [.regs] s t) ∧
    (∃ t, exec (.orVxVy x y) s = .next t ∧
      (∀ k, (t.reg x).getLsbD k = ((s.reg x).getLsbD k || (s.reg y).getLsbD k)) ∧
      RegsExcept [x] s t ∧ ChangesOnly [.regs] s t) ∧
    (∃ t, exec (.andVxVy x y) s = .next t ∧
      (∀ k, (t.reg x).getLsbD k = ((s.reg x).getLsbD k && (s.reg y).getLsbD k)) ∧
      RegsExcept [x] s t ∧ ChangesOnly [.regs] s t) ∧
    (∃ t, exec (.xorVxVy x y) s = .next t ∧
      (∀ k, (t.reg x).getLsbD k = ((s.reg x).getLsbD k ^^ (s.reg y).getLsbD k)) ∧
      RegsExcept [x] s t ∧ ChangesOnly [.regs] s t)

/-- R108: ADD Vx, Vy: the sum modulo 256, then the carry in VF; with `x = F` VF holds the carry. -/
def Obligations.AddWritesSumThenCarry : Prop :=
  ∀ (x y : Nibble) (s : State),
    EncodedAs (0x8#4 ++ x ++ y ++ 0x4#4) (.addVxVy x y) ∧
    ∃ t, exec (.addVxVy x y) s = .next t ∧
      (x ≠ vf → (t.reg x).toNat = ((s.reg x).toNat + (s.reg y).toNat) % 256) ∧
      (t.reg vf).toNat = (if (s.reg x).toNat + (s.reg y).toNat > 255 then 1 else 0) ∧
      RegsExcept [x, vf] s t ∧ ChangesOnly [.regs] s t

/-- R109, R111: SUB and SUBN: the difference modulo 256, then no-borrow in VF. -/
def Obligations.SubtractionsWriteDifferenceThenNoBorrow : Prop :=
  ∀ (x y : Nibble) (s : State),
    EncodedAs (0x8#4 ++ x ++ y ++ 0x5#4) (.subVxVy x y) ∧ EncodedAs (0x8#4 ++ x ++ y ++ 0x7#4) (.subnVxVy x y) ∧
    (∃ t, exec (.subVxVy x y) s = .next t ∧
      (x ≠ vf → ((t.reg x).toNat : Int) = (((s.reg x).toNat : Int) - (s.reg y).toNat) % 256) ∧
      (t.reg vf).toNat = (if (s.reg x).toNat ≥ (s.reg y).toNat then 1 else 0) ∧
      RegsExcept [x, vf] s t ∧ ChangesOnly [.regs] s t) ∧
    (∃ t, exec (.subnVxVy x y) s = .next t ∧
      (x ≠ vf → ((t.reg x).toNat : Int) = (((s.reg y).toNat : Int) - (s.reg x).toNat) % 256) ∧
      (t.reg vf).toNat = (if (s.reg y).toNat ≥ (s.reg x).toNat then 1 else 0) ∧
      RegsExcept [x, vf] s t ∧ ChangesOnly [.regs] s t)

/-- R110, R112: SHR and SHL shift `V[x]` in place by one, then VF holds the bit shifted out; y is ignored. -/
def Obligations.ShiftsWriteResultThenBitShiftedOut : Prop :=
  ∀ (x y : Nibble) (s : State),
    EncodedAs (0x8#4 ++ x ++ y ++ 0x6#4) (.shrVx x y) ∧ EncodedAs (0x8#4 ++ x ++ y ++ 0xE#4) (.shlVx x y) ∧
    (∃ t, exec (.shrVx x y) s = .next t ∧
      (x ≠ vf → (t.reg x).toNat = (s.reg x).toNat / 2) ∧ (t.reg vf).toNat = (s.reg x).toNat % 2 ∧
      RegsExcept [x, vf] s t ∧ ChangesOnly [.regs] s t) ∧
    (∃ t, exec (.shlVx x y) s = .next t ∧
      (x ≠ vf → (t.reg x).toNat = (s.reg x).toNat * 2 % 256) ∧ (t.reg vf).toNat = (s.reg x).toNat / 128 ∧
      RegsExcept [x, vf] s t ∧ ChangesOnly [.regs] s t)

/-- R190: RND writes the Step's random byte masked by kk; a Step that does not execute RND ignores its byte. -/
def Obligations.RandomByteIsMasked : Prop :=
  (∀ (x : Nibble) (kk : Byte) (s : State),
    EncodedAs (0xC#4 ++ x ++ kk) (.rndVxKk x kk) ∧
    ∃ t, exec (.rndVxKk x kk) s = .next t ∧
      (∀ k, (t.reg x).getLsbD k = (s.input.rnd.getLsbD k && kk.getLsbD k)) ∧
      RegsExcept [x] s t ∧ ChangesOnly [.regs] s t) ∧
  (∀ (x : Nibble) (kk : Byte) (s : State) (ev : KeyEvent) (rnd : Byte), Fetches s (.rndVxKk x kk) →
    ∃ t, s.stepWith ⟨ev, rnd⟩ = .next t ∧ t.reg x = rnd &&& kk ∧ t.status.outcome = .ok) ∧
  ∀ (s : State), (∀ x kk, ¬ Fetches s (.rndVxKk x kk)) →
    ∀ ev rnd rnd', s.stepWith ⟨ev, rnd⟩ = s.stepWith ⟨ev, rnd'⟩

end Arithmetic

section IndexAndMemory

/-- R130, R131: LD I writes the zero-extended address; ADD I wraps modulo 65536 and writes no flag. -/
def Obligations.IndexLoadsAndAdds : Prop :=
  (∀ (nnn : Addr12) (s : State),
    EncodedAs (0xA#4 ++ nnn) (.ldINnn nnn) ∧
    ∃ t, exec (.ldINnn nnn) s = .next t ∧ t.i.toNat = nnn.toNat ∧ ChangesOnly [.index] s t) ∧
  ∀ (x : Nibble) (s : State),
    EncodedAs (0xF#4 ++ x ++ 0x1E#8) (.addIVx x) ∧
    ∃ t, exec (.addIVx x) s = .next t ∧ t.i.toNat = (s.i.toNat + (s.reg x).toNat) % 65536 ∧
      ChangesOnly [.index] s t

/-- R132: LD F points `I` at the glyph of the low nibble of `V[x]`, for every FONT_BASE. -/
def Obligations.FontLookupPointsAtTheGlyph : Prop :=
  ∀ (x : Nibble) (s : State),
    EncodedAs (0xF#4 ++ x ++ 0x29#8) (.ldFVx x) ∧
    ∃ t, exec (.ldFVx x) s = .next t ∧
      t.i.toNat = s.cfg.fontBase.val + 5 * ((s.reg x).toNat % 16) ∧
      s.cfg.fontBase.val ≤ t.i.toNat ∧ t.i.toNat ≤ s.cfg.fontBase.val + 75 ∧ ChangesOnly [.index] s t

/-- R133: LD B stores the three decimal digits of `V[x]` at I, I+1, I+2, or faults with nothing stored. -/
def Obligations.DecimalDigitsAreStored : Prop :=
  ∀ (x : Nibble) (s : State), s.mem.wf s.cfg = true →
    EncodedAs (0xF#4 ++ x ++ 0x33#8) (.ldBVx x) ∧
    (s.i.toNat + 2 ≤ 0xFFF → ∃ t, exec (.ldBVx x) s = .next t ∧
      (t.readByte s.i.toNat).toNat = (s.reg x).toNat / 100 ∧
      (t.readByte (s.i.toNat + 1)).toNat = (s.reg x).toNat / 10 % 10 ∧
      (t.readByte (s.i.toNat + 2)).toNat = (s.reg x).toNat % 10 ∧
      (∀ a, a < s.i.toNat ∨ s.i.toNat + 2 < a → t.readByte a = s.readByte a) ∧ ChangesOnly [.mem] s t) ∧
    (s.i.toNat + 2 > 0xFFF → exec (.ldBVx x) s =
      .next (s.takeFault .memBounds (s.pc - 2) (0xF#4 ++ x ++ 0x33#8) (boundsInfo s)))

/-- R134: LD [I], Vx stores V0 to Vx at I to I + x, or faults with nothing stored; `I` stays. -/
def Obligations.BulkStoreWritesRegistersInOrder : Prop :=
  ∀ (x : Nibble) (s : State), s.mem.wf s.cfg = true →
    EncodedAs (0xF#4 ++ x ++ 0x55#8) (.ldMemIVx x) ∧
    (s.i.toNat + x.toNat ≤ 0xFFF → ∃ t, exec (.ldMemIVx x) s = .next t ∧
      (∀ r : Nibble, r.toNat ≤ x.toNat → t.readByte (s.i.toNat + r.toNat) = s.reg r) ∧
      (∀ a, a < s.i.toNat ∨ s.i.toNat + x.toNat < a → t.readByte a = s.readByte a) ∧
      ChangesOnly [.mem] s t) ∧
    (s.i.toNat + x.toNat > 0xFFF → exec (.ldMemIVx x) s =
      .next (s.takeFault .memBounds (s.pc - 2) (0xF#4 ++ x ++ 0x55#8) (boundsInfo s)))

/-- R135: LD Vx, [I] loads V0 to Vx from I to I + x, or faults with no register written; `I` stays. -/
def Obligations.BulkLoadReadsRegistersInOrder : Prop :=
  ∀ (x : Nibble) (s : State),
    EncodedAs (0xF#4 ++ x ++ 0x65#8) (.ldVxMemI x) ∧
    (s.i.toNat + x.toNat ≤ 0xFFF → ∃ t, exec (.ldVxMemI x) s = .next t ∧
      (∀ r : Nibble, t.reg r = if r.toNat ≤ x.toNat then s.readByte (s.i.toNat + r.toNat) else s.reg r) ∧
      ChangesOnly [.regs] s t) ∧
    (s.i.toNat + x.toNat > 0xFFF → exec (.ldVxMemI x) s =
      .next (s.takeFault .memBounds (s.pc - 2) (0xF#4 ++ x ++ 0x65#8) (boundsInfo s)))

end IndexAndMemory

section Graphics

/-- R150, R151, R152, R154, R155: DRW flips exactly the pixels of the sprite, with the origin reduced modulo the
screen, columns wrapping and rows below the screen clipped; it sets VF to the collision flag, and faults with nothing
changed when a drawn row's address exceeds 0xFFF. -/
def Obligations.DrawFlipsTheSpritePixels : Prop :=
  ∀ (x y n : Nibble) (s : State),
    let h := min n.toNat (32 - (s.reg y).toNat % 32)
    EncodedAs (0xD#4 ++ x ++ y ++ n) (.drwVxVyN x y n) ∧
    (h = 0 ∨ s.i.toNat + h - 1 ≤ 0xFFF → ∃ t, exec (.drwVxVyN x y n) s = .next t ∧
      (∀ py px, py < 32 → px < 64 → pixel t.fb py px = (pixel s.fb py px ^^ spriteBit s x y n py px)) ∧
      (spriteCollides s x y n → t.reg vf = 1) ∧ (¬ spriteCollides s x y n → t.reg vf = 0) ∧
      RegsExcept [vf] s t ∧ ChangesOnly [.regs, .fb] s t) ∧
    (h > 0 ∧ s.i.toNat + h - 1 > 0xFFF → exec (.drwVxVyN x y n) s =
      .next (s.takeFault .memBounds (s.pc - 2) (0xD#4 ++ x ++ y ++ n) (boundsInfo s)))

/-- A draw of height 0 draws nothing and cannot fault, whatever `I` is; it clears VF. The spec marks R156, which says so,
as its inference from R150. -/
def Obligations.DrawOfHeightZeroOnlyClearsVF : Prop :=
  ∀ (x y : Nibble) (s : State), ∃ t, exec (.drwVxVyN x y 0x0#4) s = .next t ∧
    t.fb = s.fb ∧ t.reg vf = 0 ∧ RegsExcept [vf] s t ∧ ChangesOnly [.regs] s t

/-- Drawing the same sprite twice at the same origin restores the framebuffer (R157). The second draw sets VF exactly
when the sprite flips a pixel that was off before the first draw, which is what R150 gives; R157's own VF clause holds
where the first draw hit nothing, and not on a screen where every pixel the sprite covers was on: there the model
follows R150 (log 16). `r` is the state of the second draw: only `I`, the bytes, the coordinates and the pixels must be
those the first one left. -/
def Obligations.DrawingTwiceRestoresTheScreen : Prop :=
  ∀ (x y n : Nibble) (s t r : State), x ≠ vf → y ≠ vf →
    faultOf (.drwVxVyN x y n) s = none → exec (.drwVxVyN x y n) s = .next t →
    r.fb = t.fb → r.i = s.i → (∀ a, r.readByte a = s.readByte a) → r.reg x = s.reg x → r.reg y = s.reg y →
    ∃ u, exec (.drwVxVyN x y n) r = .next u ∧ u.fb = s.fb ∧
      (spriteTurnsOn s x y n → u.reg vf = 1) ∧ (¬ spriteTurnsOn s x y n → u.reg vf = 0) ∧
      (t.reg vf = 0 → (u.reg vf = 1 ↔ spriteFlips s x y n))

/-- R195: CLS turns every pixel off and changes nothing else. -/
def Obligations.ClearTurnsEveryPixelOff : Prop :=
  EncodedAs 0x00E0#16 .cls ∧
  ∀ s : State, ∃ t, exec .cls s = .next t ∧
    (∀ py px, py < 32 → px < 64 → pixel t.fb py px = false) ∧ ChangesOnly [.fb] s t

end Graphics

section InputAndTimers

/-- R170, R171: the key skips follow the held state of the key `V[x]` names, and fault when it names none. -/
def Obligations.KeySkipsFollowTheHeldState : Prop :=
  ∀ (x : Nibble) (s : State),
    EncodedAs (0xE#4 ++ x ++ 0x9E#8) (.skpVx x) ∧ EncodedAs (0xE#4 ++ x ++ 0xA1#8) (.sknpVx x) ∧
    (∀ h : (s.reg x).toNat ≤ 15,
      (∃ t, exec (.skpVx x) s = .next t ∧ ChangesOnly [.pc] s t ∧
        t.pc.toNat = if s.keys[(s.reg x).toNat] = true then (s.pc.toNat + 2) % 65536 else s.pc.toNat) ∧
      (∃ t, exec (.sknpVx x) s = .next t ∧ ChangesOnly [.pc] s t ∧
        t.pc.toNat = if s.keys[(s.reg x).toNat] = false then (s.pc.toNat + 2) % 65536 else s.pc.toNat)) ∧
    ((s.reg x).toNat > 15 →
      exec (.skpVx x) s = .next (s.takeFault .keyIndex (s.pc - 2) (0xE#4 ++ x ++ 0x9E#8)
        (BitVec.ofNat 16 (s.reg x).toNat)) ∧
      exec (.sknpVx x) s = .next (s.takeFault .keyIndex (s.pc - 2) (0xE#4 ++ x ++ 0xA1#8)
        (BitVec.ofNat 16 (s.reg x).toNat)))

/-- R172: LD Vx, K resolves at once on a press, cancels on a cancel, and suspends with no event; `PC` is `a + 2` in every
case, and the Step returns the outcome. -/
def Obligations.KeyWaitFollowsItsEvent : Prop :=
  ∀ (x : Nibble) (s : State),
    EncodedAs (0xF#4 ++ x ++ 0x0A#8) (.ldVxK x) ∧
    (∀ k, s.input.ev = .press k → ∃ t, exec (.ldVxK x) s = .next t ∧ (t.reg x).toNat = k.toNat ∧
      RegsExcept [x] s t ∧ ChangesOnly [.regs] s t) ∧
    (s.input.ev = .cancel → ∃ t, exec (.ldVxK x) s = .next t ∧ t.status = .cancelled ∧
      ChangesOnly [.status] s t) ∧
    (s.input.ev = .none → ∃ t, exec (.ldVxK x) s = .next t ∧ t.status = .wait x ∧ ChangesOnly [.status] s t) ∧
    (Fetches s (.ldVxK x) → ∀ ev rnd, ∃ t, s.stepWith ⟨ev, rnd⟩ = .next t ∧ t.pc = s.pc + 2 ∧
      match ev with
      | .press k => t.status.outcome = .ok ∧ (t.reg x).toNat = k.toNat
      | .cancel => t.status.outcome = .cancelled ∧ t.v = s.v
      | .none => t.status.outcome = .waiting ∧ t.v = s.v)

/-- R177, R178, R179: reading the delay timer, and writing each timer. -/
def Obligations.TimersAreReadAndWritten : Prop :=
  ∀ (x : Nibble) (s : State),
    EncodedAs (0xF#4 ++ x ++ 0x07#8) (.ldVxDt x) ∧ EncodedAs (0xF#4 ++ x ++ 0x15#8) (.ldDtVx x) ∧
    EncodedAs (0xF#4 ++ x ++ 0x18#8) (.ldStVx x) ∧
    (∃ t, exec (.ldVxDt x) s = .next t ∧ t.reg x = s.dt ∧ RegsExcept [x] s t ∧ ChangesOnly [.regs] s t) ∧
    (∃ t, exec (.ldDtVx x) s = .next t ∧ t.dt = s.reg x ∧ ChangesOnly [.dt] s t) ∧
    (∃ t, exec (.ldStVx x) s = .next t ∧ t.st = s.reg x ∧ ChangesOnly [.st] s t)

end InputAndTimers

section HostOperations

/-- R33, R240: Reset gives every piece of state its listed value, from every state and under every value of the
parameters; `State.reset` is such a state. -/
def Obligations.ResetGivesTheListedState : Prop :=
  (∀ s : State, ∃ t, HostOp.reset.perform s = .next t ∧ t.cfg = s.cfg ∧ isResetState t) ∧ isResetState State.reset

/-- A Step on a freshly reset core fetches 0000 at 0x200 and faults UNKNOWN_OPCODE. The spec marks R227, which says so,
as its inference. -/
def Obligations.FreshCoreFaultsOnItsFirstStep : Prop :=
  ∀ cfg : Config, ∃ t, step (State.resetWith cfg) = .next t ∧
    t.status = .faulted .unknownOpcode 0x200#16 0x0000#16 0 ∧ t.pc = 0x202#16

/-- R47: Load stores the image from 0x200 upward, drops the bytes above 0xFFF, changes nothing else and never faults. -/
def Obligations.LoadStoresTheImageThatFits : Prop :=
  ∀ (image : List Byte) (s : State), s.mem.wf s.cfg = true →
    ∃ t, (HostOp.load image).perform s = .next t ∧
      (∀ k (h : k < image.length), 0x200 + k ≤ 0xFFF → t.readByte (0x200 + k) = image[k]) ∧
      (∀ a, a < 0x200 ∨ 0x200 + image.length ≤ a → t.readByte a = s.readByte a) ∧
      ChangesOnly [.mem] s t

/-- R220: SetKeys overwrites all sixteen keys from the mask and changes nothing else, in every status. -/
def Obligations.SetKeysOverwritesEveryKey : Prop :=
  ∀ (mask : Word) (s : State), ∃ t, (HostOp.setKeys mask).perform s = .next t ∧
    (∀ k (h : k < 16), t.keys[k] = mask.getLsbD k) ∧ ChangesOnly [.keys] s t

/-- R215: after k Ticks each timer is its value less k, floored at zero, and nothing else has changed, in every
status. -/
def Obligations.TicksCountBothTimersDown : Prop :=
  ∀ (k : Nat) (s : State), ∃ t, runHost (List.replicate k .tick) s = .next t ∧
    t.dt.toNat = max 0 (s.dt.toNat - k) ∧ t.st.toNat = max 0 (s.st.toNat - k) ∧ ChangesOnly [.dt, .st] s t

/-- R222: the framebuffer read answers the grid and changes nothing; the status read answers the status. -/
def Obligations.ReadsAnswerAndChangeNothing : Prop :=
  ∀ s : State,
    HostOp.readFramebuffer.perform s = .next s ∧ HostOp.readFramebuffer.reply s = .framebuffer s.fb ∧
    HostOp.readStatus.perform s = .next s ∧ HostOp.readStatus.reply s = .status s.status

end HostOperations
end

