-- ==== Sys2Proof/Laws/Encoding.lean ====
section
/-! SUPPORT. The fields of a word as arithmetic on its number (30_encoding.md R61), and the fields of an assembled
word. -/

namespace Sys2Proof

section Arithmetic

theorem toNat_append_eq {n m : Nat} (a : BitVec n) (b : BitVec m) :
    (a ++ b).toNat = a.toNat * 2 ^ m + b.toNat := by
  rw [BitVec.toNat_append, ← Nat.shiftLeft_add_eq_or_of_lt b.isLt, Nat.shiftLeft_eq]

theorem toNat_extract_eq {n : Nat} (w : BitVec n) (lo len : Nat) :
    (w.extractLsb' lo len).toNat = w.toNat / 2 ^ lo % 2 ^ len := by
  rw [BitVec.extractLsb'_toNat, Nat.shiftRight_eq_div_pow]

theorem opField_toNat (w : Word) : (opField w).toNat = w.toNat / 4096 := by
  have := w.isLt
  simp only [opField, toNat_extract_eq]
  omega

theorem xField_toNat (w : Word) : (xField w).toNat = w.toNat / 256 % 16 := by
  simp only [xField, toNat_extract_eq]
  rfl

theorem yField_toNat (w : Word) : (yField w).toNat = w.toNat / 16 % 16 := by
  simp only [yField, toNat_extract_eq]
  rfl

theorem nField_toNat (w : Word) : (nField w).toNat = w.toNat % 16 := by
  simp only [nField, toNat_extract_eq]
  omega

theorem kkField_toNat (w : Word) : (kkField w).toNat = w.toNat % 256 := by
  simp only [kkField, toNat_extract_eq]
  omega

theorem nnnField_toNat (w : Word) : (nnnField w).toNat = w.toNat % 4096 := by
  simp only [nnnField, toNat_extract_eq]
  omega

theorem wordOfBytes_toNat (hi lo : Byte) : (wordOfBytes hi lo).toNat = hi.toNat * 256 + lo.toNat := by
  simp only [wordOfBytes, toNat_append_eq]
  rfl

theorem wordOfBytes_high_low (w : Word) : wordOfBytes (highByte w) (lowByte w) = w := by
  apply BitVec.eq_of_toNat_eq
  have := w.isLt
  simp only [wordOfBytes_toNat, highByte, lowByte, toNat_extract_eq]
  omega

end Arithmetic

section Formats

/-- A word of the `nnn` format (R61). -/
theorem fields_nnn (op : Nibble) (nnn : Addr12) :
    opField (op ++ nnn) = op ∧ nnnField (op ++ nnn) = nnn := by
  have h1 := op.isLt
  have h2 := nnn.isLt
  refine ⟨BitVec.eq_of_toNat_eq ?_, BitVec.eq_of_toNat_eq ?_⟩
  · rw [opField_toNat, toNat_append_eq]; omega
  · rw [nnnField_toNat, toNat_append_eq]; omega

/-- A word of the `xkk` format (R61). -/
theorem fields_xkk (op x : Nibble) (kk : Byte) :
    opField (op ++ x ++ kk) = op ∧ xField (op ++ x ++ kk) = x ∧ kkField (op ++ x ++ kk) = kk := by
  have h1 := op.isLt
  have h2 := x.isLt
  have h3 := kk.isLt
  refine ⟨BitVec.eq_of_toNat_eq ?_, BitVec.eq_of_toNat_eq ?_, BitVec.eq_of_toNat_eq ?_⟩
  · rw [opField_toNat, toNat_append_eq, toNat_append_eq]; omega
  · rw [xField_toNat, toNat_append_eq, toNat_append_eq]; omega
  · rw [kkField_toNat, toNat_append_eq, toNat_append_eq]; omega

/-- A word of the `xyn` format (R61). -/
theorem fields_xyn (op x y n : Nibble) :
    opField (op ++ x ++ y ++ n) = op ∧ xField (op ++ x ++ y ++ n) = x ∧
      yField (op ++ x ++ y ++ n) = y ∧ nField (op ++ x ++ y ++ n) = n := by
  have h1 := op.isLt
  have h2 := x.isLt
  have h3 := y.isLt
  have h4 := n.isLt
  refine ⟨BitVec.eq_of_toNat_eq ?_, BitVec.eq_of_toNat_eq ?_, BitVec.eq_of_toNat_eq ?_,
    BitVec.eq_of_toNat_eq ?_⟩
  · rw [opField_toNat, toNat_append_eq, toNat_append_eq, toNat_append_eq]; omega
  · rw [xField_toNat, toNat_append_eq, toNat_append_eq, toNat_append_eq]; omega
  · rw [yField_toNat, toNat_append_eq, toNat_append_eq, toNat_append_eq]; omega
  · rw [nField_toNat, toNat_append_eq, toNat_append_eq, toNat_append_eq]; omega

/-- A word is its fields. -/
theorem eq_of_fields_nnn {w : Word} {op : Nibble} (h : opField w = op) : op ++ nnnField w = w := by
  subst h
  apply BitVec.eq_of_toNat_eq
  rw [toNat_append_eq, opField_toNat, nnnField_toNat]
  omega

/-- A word is its fields. -/
theorem eq_of_fields_xkk {w : Word} {op : Nibble} (h : opField w = op) : op ++ xField w ++ kkField w = w := by
  subst h
  apply BitVec.eq_of_toNat_eq
  rw [toNat_append_eq, toNat_append_eq, opField_toNat, xField_toNat, kkField_toNat]
  omega

/-- A word is its fields. -/
theorem eq_of_fields_xyn {w : Word} {op : Nibble} (h : opField w = op) :
    op ++ xField w ++ yField w ++ nField w = w := by
  subst h
  apply BitVec.eq_of_toNat_eq
  rw [toNat_append_eq, toNat_append_eq, toNat_append_eq, opField_toNat, xField_toNat, yField_toNat,
    nField_toNat]
  omega

end Formats

section Masks

theorem and_mask_F000 (w : Word) : w &&& 0xF000#16 = opField w ++ 0#12 := by
  have e : opField w ++ nnnField w = w := eq_of_fields_nnn rfl
  have h : (opField w ++ nnnField w) &&& (0xF#4 ++ 0#12) =
      (opField w &&& 0xF#4) ++ (nnnField w &&& 0#12) := BitVec.and_append ..
  rw [e] at h
  have h2 : opField w &&& 0xF#4 = opField w := BitVec.and_allOnes
  rw [h2, BitVec.and_zero] at h
  exact h

theorem and_mask_F00F (w : Word) : w &&& 0xF00F#16 = opField w ++ 0#4 ++ 0#4 ++ nField w := by
  have e : opField w ++ xField w ++ yField w ++ nField w = w := eq_of_fields_xyn rfl
  have h : (opField w ++ xField w ++ yField w ++ nField w) &&& (0xF#4 ++ 0#4 ++ 0#4 ++ 0xF#4) =
      (opField w &&& 0xF#4) ++ (xField w &&& 0#4) ++ (yField w &&& 0#4) ++ (nField w &&& 0xF#4) := by
    rw [BitVec.and_append, BitVec.and_append, BitVec.and_append]
  rw [e] at h
  have h2 : opField w &&& 0xF#4 = opField w := BitVec.and_allOnes
  have h3 : nField w &&& 0xF#4 = nField w := BitVec.and_allOnes
  rw [h2, h3, BitVec.and_zero, BitVec.and_zero] at h
  exact h

theorem and_mask_F0FF (w : Word) : w &&& 0xF0FF#16 = opField w ++ 0#4 ++ kkField w := by
  have e : opField w ++ xField w ++ kkField w = w := eq_of_fields_xkk rfl
  have h : (opField w ++ xField w ++ kkField w) &&& (0xF#4 ++ 0#4 ++ 0xFF#8) =
      (opField w &&& 0xF#4) ++ (xField w &&& 0#4) ++ (kkField w &&& 0xFF#8) := by
    rw [BitVec.and_append, BitVec.and_append]
  rw [e] at h
  have h2 : opField w &&& 0xF#4 = opField w := BitVec.and_allOnes
  have h3 : kkField w &&& 0xFF#8 = kkField w := BitVec.and_allOnes
  rw [h2, h3, BitVec.and_zero] at h
  exact h

theorem and_mask_FFFF (w : Word) : w &&& 0xFFFF#16 = w := BitVec.and_allOnes

/-- A row with mask F000 fixes the family (R66). -/
theorem mask_F000_iff (w : Word) (op : Nibble) : w &&& 0xF000#16 = op ++ 0#12 ↔ opField w = op := by
  rw [and_mask_F000]
  constructor
  · intro h; have := congrArg opField h; rwa [(fields_nnn _ _).1, (fields_nnn _ _).1] at this
  · rintro rfl; rfl

/-- A row with mask F00F fixes the family and `n` (R66). -/
theorem mask_F00F_iff (w : Word) (op n : Nibble) :
    w &&& 0xF00F#16 = op ++ 0#4 ++ 0#4 ++ n ↔ opField w = op ∧ nField w = n := by
  rw [and_mask_F00F]
  constructor
  · intro h
    have h1 := congrArg opField h
    have h2 := congrArg nField h
    rw [(fields_xyn _ _ _ _).1, (fields_xyn _ _ _ _).1] at h1
    rw [(fields_xyn _ _ _ _).2.2.2, (fields_xyn _ _ _ _).2.2.2] at h2
    exact ⟨h1, h2⟩
  · rintro ⟨rfl, rfl⟩; rfl

/-- A row with mask F0FF fixes the family and `kk` (R66). -/
theorem mask_F0FF_iff (w : Word) (op : Nibble) (kk : Byte) :
    w &&& 0xF0FF#16 = op ++ 0#4 ++ kk ↔ opField w = op ∧ kkField w = kk := by
  rw [and_mask_F0FF]
  constructor
  · intro h
    have h1 := congrArg opField h
    have h2 := congrArg kkField h
    rw [(fields_xkk _ _ _).1, (fields_xkk _ _ _).1] at h1
    rw [(fields_xkk _ _ _).2.2, (fields_xkk _ _ _).2.2] at h2
    exact ⟨h1, h2⟩
  · rintro ⟨rfl, rfl⟩; rfl

end Masks

end Sys2Proof
end

