-- ==== Sys2Proof/Laws/Memory.lean ====
section
/-! SUPPORT. Memory as a function of its addresses (20_memory.md R42, R43): a read after a write, and that a write
keeps the canonical form. -/

namespace Sys2Proof.Machine

section Lookup

theorem Memory.lookup_put_same (m : Memory) (a : Nat) (v : Byte) : (m.put a v).lookup a = some v := by
  induction m with
  | nil => simp [Memory.put, Memory.lookup]
  | cons c m ih =>
    simp only [Memory.put]
    split
    · simp [Memory.lookup]
    · split
      · simp [Memory.lookup]
      · simp [Memory.lookup, *]

theorem Memory.lookup_put_ne (m : Memory) {a b : Nat} (v : Byte) (h : b ≠ a) :
    (m.put a v).lookup b = m.lookup b := by
  induction m with
  | nil => simp [Memory.put, Memory.lookup, Ne.symm h]
  | cons c m ih =>
    simp only [Memory.put]
    split
    · simp [Memory.lookup, Ne.symm h]
    · split
      · next hc => simp [Memory.lookup, Ne.symm h, hc]
      · simp only [Memory.lookup, ih]

theorem Memory.lookup_drop_ne (m : Memory) {a b : Nat} (h : b ≠ a) :
    (m.drop a).lookup b = m.lookup b := by
  induction m with
  | nil => rfl
  | cons c m ih =>
    simp only [Memory.drop]
    split
    · next hc => simp [Memory.lookup, hc, Ne.symm h]
    · simp only [Memory.lookup, ih]

/-- In a rising list nothing below or at the bound is listed. -/
theorem Memory.lookup_of_risesAbove {m : Memory} {a b : Nat} (h : m.risesAbove a = true) (hb : b ≤ a) :
    m.lookup b = none := by
  induction m generalizing a with
  | nil => rfl
  | cons c m ih =>
    simp only [Memory.risesAbove, Bool.and_eq_true, decide_eq_true_eq] at h
    have : c.1 ≠ b := by omega
    simp [Memory.lookup, this, ih h.2 (by omega)]

theorem Memory.risesAbove_mono {m : Memory} {a b : Nat} (h : m.risesAbove a = true) (hb : b ≤ a) :
    m.risesAbove b = true := by
  cases m with
  | nil => rfl
  | cons c m =>
    simp only [Memory.risesAbove, Bool.and_eq_true, decide_eq_true_eq] at h ⊢
    exact ⟨by omega, h.2⟩

theorem Memory.rises_tail {c : Host.Cell} {m : Memory} (h : Memory.rises (c :: m) = true) :
    m.rises = true := by
  cases m with
  | nil => rfl
  | cons d m =>
    simp only [Memory.rises, Memory.risesAbove, Bool.and_eq_true] at h ⊢
    exact h.2

theorem Memory.lookup_drop_same {m : Memory} (a : Nat) (h : m.rises = true) :
    (m.drop a).lookup a = none := by
  induction m with
  | nil => rfl
  | cons c m ih =>
    simp only [Memory.drop]
    split
    · next hc =>
      subst hc
      exact Memory.lookup_of_risesAbove h (Nat.le_refl _)
    · next hc => simp [Memory.lookup, hc, ih (Memory.rises_tail h)]

end Lookup

section Canonical

theorem Memory.risesAbove_put {m : Memory} {a b : Nat} (v : Byte) (hab : b < a) (h : m.risesAbove b = true) :
    (m.put a v).risesAbove b = true := by
  induction m generalizing b with
  | nil => simp [Memory.put, Memory.risesAbove, hab]
  | cons c m ih =>
    simp only [Memory.risesAbove, Bool.and_eq_true, decide_eq_true_eq] at h
    simp only [Memory.put]
    split
    · next hc => simp [Memory.risesAbove, hab, hc, h.2]
    · split
      · next hc => subst hc; simp [Memory.risesAbove, hab, h.2]
      · next h1 h2 =>
        simp only [Memory.risesAbove, Bool.and_eq_true, decide_eq_true_eq]
        exact ⟨h.1, ih (by omega) h.2⟩

theorem Memory.risesAbove_drop {m : Memory} {b : Nat} (a : Nat) (h : m.risesAbove b = true) :
    (m.drop a).risesAbove b = true := by
  induction m generalizing b with
  | nil => rfl
  | cons c m ih =>
    simp only [Memory.risesAbove, Bool.and_eq_true, decide_eq_true_eq] at h
    simp only [Memory.drop]
    split
    · exact Memory.risesAbove_mono h.2 (by omega)
    · simp only [Memory.risesAbove, Bool.and_eq_true, decide_eq_true_eq]
      exact ⟨h.1, ih h.2⟩

theorem Memory.rises_put {m : Memory} (a : Nat) (v : Byte) (h : m.rises = true) : (m.put a v).rises = true := by
  cases m with
  | nil => rfl
  | cons c m =>
    simp only [Memory.rises] at h
    simp only [Memory.put]
    split
    · next hc => simp [Memory.rises, Memory.risesAbove, hc, h]
    · split
      · next hc => subst hc; simpa [Memory.rises] using h
      · exact Memory.risesAbove_put v (by omega) h

theorem Memory.rises_drop {m : Memory} (a : Nat) (h : m.rises = true) : (m.drop a).rises = true := by
  cases m with
  | nil => rfl
  | cons c m =>
    simp only [Memory.drop]
    split
    · exact Memory.rises_tail h
    · exact Memory.risesAbove_drop a h

theorem Memory.all_put {m : Memory} {a : Nat} {v : Byte} {p : Host.Cell → Bool} (hv : p (a, v) = true)
    (h : m.all p = true) : (m.put a v).all p = true := by
  induction m with
  | nil => simp [Memory.put, hv]
  | cons c m ih =>
    simp only [List.all_cons, Bool.and_eq_true] at h
    simp only [Memory.put]
    split
    · simp [hv, h.1, h.2]
    · split
      · simp [hv, h.2]
      · simp only [List.all_cons, Bool.and_eq_true]
        exact ⟨h.1, ih h.2⟩

theorem Memory.all_drop {m : Memory} (a : Nat) {p : Host.Cell → Bool} (h : m.all p = true) :
    (m.drop a).all p = true := by
  induction m with
  | nil => rfl
  | cons c m ih =>
    simp only [List.all_cons, Bool.and_eq_true] at h
    simp only [Memory.drop]
    split
    · exact h.2
    · simp only [List.all_cons, Bool.and_eq_true]
      exact ⟨h.1, ih h.2⟩

theorem Memory.wf_rises {cfg : Config} {m : Memory} (h : m.wf cfg = true) : m.rises = true := by
  simp only [Memory.wf, Bool.and_eq_true] at h
  exact h.1

/-- A write at an address of the space keeps the canonical form. -/
theorem Memory.wf_write {cfg : Config} {m : Memory} {a : Nat} (v : Byte) (ha : a < memSize)
    (h : m.wf cfg = true) : (m.write cfg a v).wf cfg = true := by
  simp only [Memory.wf, Bool.and_eq_true] at h ⊢
  unfold Memory.write
  split
  · exact ⟨Memory.rises_drop a h.1, Memory.all_drop a h.2⟩
  · next hv => exact ⟨Memory.rises_put a v h.1, Memory.all_put (by simp [ha, hv]) h.2⟩

theorem Memory.wf_nil (cfg : Config) : Memory.wf cfg [] = true := rfl

end Canonical

section Read

/-- A read after a write to the same address gives the byte written. -/
theorem Memory.read_write_same {cfg : Config} {m : Memory} (a : Nat) (v : Byte) (h : m.rises = true) :
    (m.write cfg a v).read cfg a = v := by
  unfold Memory.write Memory.read
  by_cases hv : v = resetByte cfg a
  · rw [if_pos hv, Memory.lookup_drop_same a h]
    exact hv.symm
  · rw [if_neg hv, Memory.lookup_put_same]

/-- A write leaves every other address alone. -/
theorem Memory.read_write_ne {cfg : Config} {m : Memory} {a b : Nat} (v : Byte) (h : b ≠ a) :
    (m.write cfg a v).read cfg b = m.read cfg b := by
  unfold Memory.write Memory.read
  by_cases hv : v = resetByte cfg a
  · rw [if_pos hv, Memory.lookup_drop_ne m h]
  · rw [if_neg hv, Memory.lookup_put_ne m v h]

theorem Memory.read_nil (cfg : Config) (a : Nat) : Memory.read cfg [] a = resetByte cfg a := rfl

end Read

end Sys2Proof.Machine
end

