-- ==== Sys2Proof/Laws/State.lean ====
section
/-! SUPPORT. For every update of State one lemma per field (10_state.md): what the update leaves in that field. The
updates that recurse (writeBytes, loadAt) have theirs in Laws/Ops.lean. -/

namespace Sys2Proof.Machine

section SetReg
@[simp] theorem State.setReg_v (s : State) (x : Nibble) (b : Byte) : (s.setReg x b).v = s.v.set x.toNat b x.isLt := rfl
@[simp] theorem State.setReg_i (s : State) (x : Nibble) (b : Byte) : (s.setReg x b).i = s.i := rfl
@[simp] theorem State.setReg_pc (s : State) (x : Nibble) (b : Byte) : (s.setReg x b).pc = s.pc := rfl
@[simp] theorem State.setReg_stack (s : State) (x : Nibble) (b : Byte) : (s.setReg x b).stack = s.stack := rfl
@[simp] theorem State.setReg_sp (s : State) (x : Nibble) (b : Byte) : (s.setReg x b).sp = s.sp := rfl
@[simp] theorem State.setReg_dt (s : State) (x : Nibble) (b : Byte) : (s.setReg x b).dt = s.dt := rfl
@[simp] theorem State.setReg_st (s : State) (x : Nibble) (b : Byte) : (s.setReg x b).st = s.st := rfl
@[simp] theorem State.setReg_fb (s : State) (x : Nibble) (b : Byte) : (s.setReg x b).fb = s.fb := rfl
@[simp] theorem State.setReg_keys (s : State) (x : Nibble) (b : Byte) : (s.setReg x b).keys = s.keys := rfl
@[simp] theorem State.setReg_mem (s : State) (x : Nibble) (b : Byte) : (s.setReg x b).mem = s.mem := rfl
@[simp] theorem State.setReg_status (s : State) (x : Nibble) (b : Byte) : (s.setReg x b).status = s.status := rfl
@[simp] theorem State.setReg_cfg (s : State) (x : Nibble) (b : Byte) : (s.setReg x b).cfg = s.cfg := rfl
@[simp] theorem State.setReg_inputs (s : State) (x : Nibble) (b : Byte) : (s.setReg x b).inputs = s.inputs := rfl
@[simp] theorem State.setReg_draws (s : State) (x : Nibble) (b : Byte) : (s.setReg x b).draws = s.draws := rfl
end SetReg

section SetIndex
@[simp] theorem State.setIndex_v (s : State) (w : Word) : (s.setIndex w).v = s.v := rfl
@[simp] theorem State.setIndex_i (s : State) (w : Word) : (s.setIndex w).i = w := rfl
@[simp] theorem State.setIndex_pc (s : State) (w : Word) : (s.setIndex w).pc = s.pc := rfl
@[simp] theorem State.setIndex_stack (s : State) (w : Word) : (s.setIndex w).stack = s.stack := rfl
@[simp] theorem State.setIndex_sp (s : State) (w : Word) : (s.setIndex w).sp = s.sp := rfl
@[simp] theorem State.setIndex_dt (s : State) (w : Word) : (s.setIndex w).dt = s.dt := rfl
@[simp] theorem State.setIndex_st (s : State) (w : Word) : (s.setIndex w).st = s.st := rfl
@[simp] theorem State.setIndex_fb (s : State) (w : Word) : (s.setIndex w).fb = s.fb := rfl
@[simp] theorem State.setIndex_keys (s : State) (w : Word) : (s.setIndex w).keys = s.keys := rfl
@[simp] theorem State.setIndex_mem (s : State) (w : Word) : (s.setIndex w).mem = s.mem := rfl
@[simp] theorem State.setIndex_status (s : State) (w : Word) : (s.setIndex w).status = s.status := rfl
@[simp] theorem State.setIndex_cfg (s : State) (w : Word) : (s.setIndex w).cfg = s.cfg := rfl
@[simp] theorem State.setIndex_inputs (s : State) (w : Word) : (s.setIndex w).inputs = s.inputs := rfl
@[simp] theorem State.setIndex_draws (s : State) (w : Word) : (s.setIndex w).draws = s.draws := rfl
end SetIndex

section Jump
@[simp] theorem State.jump_v (s : State) (w : Word) : (s.jump w).v = s.v := rfl
@[simp] theorem State.jump_i (s : State) (w : Word) : (s.jump w).i = s.i := rfl
@[simp] theorem State.jump_pc (s : State) (w : Word) : (s.jump w).pc = w := rfl
@[simp] theorem State.jump_stack (s : State) (w : Word) : (s.jump w).stack = s.stack := rfl
@[simp] theorem State.jump_sp (s : State) (w : Word) : (s.jump w).sp = s.sp := rfl
@[simp] theorem State.jump_dt (s : State) (w : Word) : (s.jump w).dt = s.dt := rfl
@[simp] theorem State.jump_st (s : State) (w : Word) : (s.jump w).st = s.st := rfl
@[simp] theorem State.jump_fb (s : State) (w : Word) : (s.jump w).fb = s.fb := rfl
@[simp] theorem State.jump_keys (s : State) (w : Word) : (s.jump w).keys = s.keys := rfl
@[simp] theorem State.jump_mem (s : State) (w : Word) : (s.jump w).mem = s.mem := rfl
@[simp] theorem State.jump_status (s : State) (w : Word) : (s.jump w).status = s.status := rfl
@[simp] theorem State.jump_cfg (s : State) (w : Word) : (s.jump w).cfg = s.cfg := rfl
@[simp] theorem State.jump_inputs (s : State) (w : Word) : (s.jump w).inputs = s.inputs := rfl
@[simp] theorem State.jump_draws (s : State) (w : Word) : (s.jump w).draws = s.draws := rfl
end Jump

section AdvancePc
@[simp] theorem State.advancePc_v (s : State) : (s.advancePc).v = s.v := rfl
@[simp] theorem State.advancePc_i (s : State) : (s.advancePc).i = s.i := rfl
@[simp] theorem State.advancePc_pc (s : State) : (s.advancePc).pc = s.pc + 2 := rfl
@[simp] theorem State.advancePc_stack (s : State) : (s.advancePc).stack = s.stack := rfl
@[simp] theorem State.advancePc_sp (s : State) : (s.advancePc).sp = s.sp := rfl
@[simp] theorem State.advancePc_dt (s : State) : (s.advancePc).dt = s.dt := rfl
@[simp] theorem State.advancePc_st (s : State) : (s.advancePc).st = s.st := rfl
@[simp] theorem State.advancePc_fb (s : State) : (s.advancePc).fb = s.fb := rfl
@[simp] theorem State.advancePc_keys (s : State) : (s.advancePc).keys = s.keys := rfl
@[simp] theorem State.advancePc_mem (s : State) : (s.advancePc).mem = s.mem := rfl
@[simp] theorem State.advancePc_status (s : State) : (s.advancePc).status = s.status := rfl
@[simp] theorem State.advancePc_cfg (s : State) : (s.advancePc).cfg = s.cfg := rfl
@[simp] theorem State.advancePc_inputs (s : State) : (s.advancePc).inputs = s.inputs := rfl
@[simp] theorem State.advancePc_draws (s : State) : (s.advancePc).draws = s.draws := rfl
end AdvancePc

section SetRegs
@[simp] theorem State.setRegs_v (s : State) (bs : List Byte) : (s.setRegs bs).v = setRegsFrom s.v 0 bs := rfl
@[simp] theorem State.setRegs_i (s : State) (bs : List Byte) : (s.setRegs bs).i = s.i := rfl
@[simp] theorem State.setRegs_pc (s : State) (bs : List Byte) : (s.setRegs bs).pc = s.pc := rfl
@[simp] theorem State.setRegs_stack (s : State) (bs : List Byte) : (s.setRegs bs).stack = s.stack := rfl
@[simp] theorem State.setRegs_sp (s : State) (bs : List Byte) : (s.setRegs bs).sp = s.sp := rfl
@[simp] theorem State.setRegs_dt (s : State) (bs : List Byte) : (s.setRegs bs).dt = s.dt := rfl
@[simp] theorem State.setRegs_st (s : State) (bs : List Byte) : (s.setRegs bs).st = s.st := rfl
@[simp] theorem State.setRegs_fb (s : State) (bs : List Byte) : (s.setRegs bs).fb = s.fb := rfl
@[simp] theorem State.setRegs_keys (s : State) (bs : List Byte) : (s.setRegs bs).keys = s.keys := rfl
@[simp] theorem State.setRegs_mem (s : State) (bs : List Byte) : (s.setRegs bs).mem = s.mem := rfl
@[simp] theorem State.setRegs_status (s : State) (bs : List Byte) : (s.setRegs bs).status = s.status := rfl
@[simp] theorem State.setRegs_cfg (s : State) (bs : List Byte) : (s.setRegs bs).cfg = s.cfg := rfl
@[simp] theorem State.setRegs_inputs (s : State) (bs : List Byte) : (s.setRegs bs).inputs = s.inputs := rfl
@[simp] theorem State.setRegs_draws (s : State) (bs : List Byte) : (s.setRegs bs).draws = s.draws := rfl
end SetRegs

section TakeFault
@[simp] theorem State.takeFault_v (s : State) (c : FaultCause) (a w n : Word) : (s.takeFault c a w n).v = s.v := rfl
@[simp] theorem State.takeFault_i (s : State) (c : FaultCause) (a w n : Word) : (s.takeFault c a w n).i = s.i := rfl
@[simp] theorem State.takeFault_pc (s : State) (c : FaultCause) (a w n : Word) : (s.takeFault c a w n).pc = s.pc := rfl
@[simp] theorem State.takeFault_stack (s : State) (c : FaultCause) (a w n : Word) : (s.takeFault c a w n).stack = s.stack := rfl
@[simp] theorem State.takeFault_sp (s : State) (c : FaultCause) (a w n : Word) : (s.takeFault c a w n).sp = s.sp := rfl
@[simp] theorem State.takeFault_dt (s : State) (c : FaultCause) (a w n : Word) : (s.takeFault c a w n).dt = s.dt := rfl
@[simp] theorem State.takeFault_st (s : State) (c : FaultCause) (a w n : Word) : (s.takeFault c a w n).st = s.st := rfl
@[simp] theorem State.takeFault_fb (s : State) (c : FaultCause) (a w n : Word) : (s.takeFault c a w n).fb = s.fb := rfl
@[simp] theorem State.takeFault_keys (s : State) (c : FaultCause) (a w n : Word) : (s.takeFault c a w n).keys = s.keys := rfl
@[simp] theorem State.takeFault_mem (s : State) (c : FaultCause) (a w n : Word) : (s.takeFault c a w n).mem = s.mem := rfl
@[simp] theorem State.takeFault_status (s : State) (c : FaultCause) (a w n : Word) : (s.takeFault c a w n).status = .faulted c a w n := rfl
@[simp] theorem State.takeFault_cfg (s : State) (c : FaultCause) (a w n : Word) : (s.takeFault c a w n).cfg = s.cfg := rfl
@[simp] theorem State.takeFault_inputs (s : State) (c : FaultCause) (a w n : Word) : (s.takeFault c a w n).inputs = s.inputs := rfl
@[simp] theorem State.takeFault_draws (s : State) (c : FaultCause) (a w n : Word) : (s.takeFault c a w n).draws = s.draws := rfl
end TakeFault

section ConsumeInput
@[simp] theorem State.consumeInput_v (s : State) : (s.consumeInput).v = s.v := rfl
@[simp] theorem State.consumeInput_i (s : State) : (s.consumeInput).i = s.i := rfl
@[simp] theorem State.consumeInput_pc (s : State) : (s.consumeInput).pc = s.pc := rfl
@[simp] theorem State.consumeInput_stack (s : State) : (s.consumeInput).stack = s.stack := rfl
@[simp] theorem State.consumeInput_sp (s : State) : (s.consumeInput).sp = s.sp := rfl
@[simp] theorem State.consumeInput_dt (s : State) : (s.consumeInput).dt = s.dt := rfl
@[simp] theorem State.consumeInput_st (s : State) : (s.consumeInput).st = s.st := rfl
@[simp] theorem State.consumeInput_fb (s : State) : (s.consumeInput).fb = s.fb := rfl
@[simp] theorem State.consumeInput_keys (s : State) : (s.consumeInput).keys = s.keys := rfl
@[simp] theorem State.consumeInput_mem (s : State) : (s.consumeInput).mem = s.mem := rfl
@[simp] theorem State.consumeInput_status (s : State) : (s.consumeInput).status = s.status := rfl
@[simp] theorem State.consumeInput_cfg (s : State) : (s.consumeInput).cfg = s.cfg := rfl
@[simp] theorem State.consumeInput_inputs (s : State) : (s.consumeInput).inputs = s.inputs.tail := rfl
@[simp] theorem State.consumeInput_draws (s : State) : (s.consumeInput).draws = s.draws + 1 := rfl
end ConsumeInput

section SetFlag
@[simp] theorem State.setFlag_i (s : State) (f : Bool) : (s.setFlag f).i = s.i := rfl
@[simp] theorem State.setFlag_pc (s : State) (f : Bool) : (s.setFlag f).pc = s.pc := rfl
@[simp] theorem State.setFlag_stack (s : State) (f : Bool) : (s.setFlag f).stack = s.stack := rfl
@[simp] theorem State.setFlag_sp (s : State) (f : Bool) : (s.setFlag f).sp = s.sp := rfl
@[simp] theorem State.setFlag_dt (s : State) (f : Bool) : (s.setFlag f).dt = s.dt := rfl
@[simp] theorem State.setFlag_st (s : State) (f : Bool) : (s.setFlag f).st = s.st := rfl
@[simp] theorem State.setFlag_fb (s : State) (f : Bool) : (s.setFlag f).fb = s.fb := rfl
@[simp] theorem State.setFlag_keys (s : State) (f : Bool) : (s.setFlag f).keys = s.keys := rfl
@[simp] theorem State.setFlag_mem (s : State) (f : Bool) : (s.setFlag f).mem = s.mem := rfl
@[simp] theorem State.setFlag_status (s : State) (f : Bool) : (s.setFlag f).status = s.status := rfl
@[simp] theorem State.setFlag_cfg (s : State) (f : Bool) : (s.setFlag f).cfg = s.cfg := rfl
@[simp] theorem State.setFlag_inputs (s : State) (f : Bool) : (s.setFlag f).inputs = s.inputs := rfl
@[simp] theorem State.setFlag_draws (s : State) (f : Bool) : (s.setFlag f).draws = s.draws := rfl
end SetFlag

section SetRegFlag
@[simp] theorem State.setRegFlag_i (s : State) (x : Nibble) (r : Byte) (f : Bool) : (s.setRegFlag x r f).i = s.i := rfl
@[simp] theorem State.setRegFlag_pc (s : State) (x : Nibble) (r : Byte) (f : Bool) : (s.setRegFlag x r f).pc = s.pc := rfl
@[simp] theorem State.setRegFlag_stack (s : State) (x : Nibble) (r : Byte) (f : Bool) : (s.setRegFlag x r f).stack = s.stack := rfl
@[simp] theorem State.setRegFlag_sp (s : State) (x : Nibble) (r : Byte) (f : Bool) : (s.setRegFlag x r f).sp = s.sp := rfl
@[simp] theorem State.setRegFlag_dt (s : State) (x : Nibble) (r : Byte) (f : Bool) : (s.setRegFlag x r f).dt = s.dt := rfl
@[simp] theorem State.setRegFlag_st (s : State) (x : Nibble) (r : Byte) (f : Bool) : (s.setRegFlag x r f).st = s.st := rfl
@[simp] theorem State.setRegFlag_fb (s : State) (x : Nibble) (r : Byte) (f : Bool) : (s.setRegFlag x r f).fb = s.fb := rfl
@[simp] theorem State.setRegFlag_keys (s : State) (x : Nibble) (r : Byte) (f : Bool) : (s.setRegFlag x r f).keys = s.keys := rfl
@[simp] theorem State.setRegFlag_mem (s : State) (x : Nibble) (r : Byte) (f : Bool) : (s.setRegFlag x r f).mem = s.mem := rfl
@[simp] theorem State.setRegFlag_status (s : State) (x : Nibble) (r : Byte) (f : Bool) : (s.setRegFlag x r f).status = s.status := rfl
@[simp] theorem State.setRegFlag_cfg (s : State) (x : Nibble) (r : Byte) (f : Bool) : (s.setRegFlag x r f).cfg = s.cfg := rfl
@[simp] theorem State.setRegFlag_inputs (s : State) (x : Nibble) (r : Byte) (f : Bool) : (s.setRegFlag x r f).inputs = s.inputs := rfl
@[simp] theorem State.setRegFlag_draws (s : State) (x : Nibble) (r : Byte) (f : Bool) : (s.setRegFlag x r f).draws = s.draws := rfl
end SetRegFlag

section SetKeys
@[simp] theorem State.setKeys_v (s : State) (mask : Word) : (s.setKeys mask).v = s.v := rfl
@[simp] theorem State.setKeys_i (s : State) (mask : Word) : (s.setKeys mask).i = s.i := rfl
@[simp] theorem State.setKeys_pc (s : State) (mask : Word) : (s.setKeys mask).pc = s.pc := rfl
@[simp] theorem State.setKeys_stack (s : State) (mask : Word) : (s.setKeys mask).stack = s.stack := rfl
@[simp] theorem State.setKeys_sp (s : State) (mask : Word) : (s.setKeys mask).sp = s.sp := rfl
@[simp] theorem State.setKeys_dt (s : State) (mask : Word) : (s.setKeys mask).dt = s.dt := rfl
@[simp] theorem State.setKeys_st (s : State) (mask : Word) : (s.setKeys mask).st = s.st := rfl
@[simp] theorem State.setKeys_fb (s : State) (mask : Word) : (s.setKeys mask).fb = s.fb := rfl
@[simp] theorem State.setKeys_mem (s : State) (mask : Word) : (s.setKeys mask).mem = s.mem := rfl
@[simp] theorem State.setKeys_status (s : State) (mask : Word) : (s.setKeys mask).status = s.status := rfl
@[simp] theorem State.setKeys_cfg (s : State) (mask : Word) : (s.setKeys mask).cfg = s.cfg := rfl
@[simp] theorem State.setKeys_inputs (s : State) (mask : Word) : (s.setKeys mask).inputs = s.inputs := rfl
@[simp] theorem State.setKeys_draws (s : State) (mask : Word) : (s.setKeys mask).draws = s.draws := rfl
end SetKeys

section Tick
@[simp] theorem State.tick_v (s : State) : (s.tick).v = s.v := rfl
@[simp] theorem State.tick_i (s : State) : (s.tick).i = s.i := rfl
@[simp] theorem State.tick_pc (s : State) : (s.tick).pc = s.pc := rfl
@[simp] theorem State.tick_stack (s : State) : (s.tick).stack = s.stack := rfl
@[simp] theorem State.tick_sp (s : State) : (s.tick).sp = s.sp := rfl
@[simp] theorem State.tick_dt (s : State) : (s.tick).dt = countDown s.dt := rfl
@[simp] theorem State.tick_st (s : State) : (s.tick).st = countDown s.st := rfl
@[simp] theorem State.tick_fb (s : State) : (s.tick).fb = s.fb := rfl
@[simp] theorem State.tick_keys (s : State) : (s.tick).keys = s.keys := rfl
@[simp] theorem State.tick_mem (s : State) : (s.tick).mem = s.mem := rfl
@[simp] theorem State.tick_status (s : State) : (s.tick).status = s.status := rfl
@[simp] theorem State.tick_cfg (s : State) : (s.tick).cfg = s.cfg := rfl
@[simp] theorem State.tick_inputs (s : State) : (s.tick).inputs = s.inputs := rfl
@[simp] theorem State.tick_draws (s : State) : (s.tick).draws = s.draws := rfl
end Tick

section SkipIf
@[simp] theorem State.skipIf_v (s : State) (c : Bool) : (s.skipIf c).v = s.v := by cases c <;> rfl
@[simp] theorem State.skipIf_i (s : State) (c : Bool) : (s.skipIf c).i = s.i := by cases c <;> rfl
@[simp] theorem State.skipIf_pc (s : State) (c : Bool) : (s.skipIf c).pc = if c then s.pc + 2 else s.pc := by cases c <;> rfl
@[simp] theorem State.skipIf_stack (s : State) (c : Bool) : (s.skipIf c).stack = s.stack := by cases c <;> rfl
@[simp] theorem State.skipIf_sp (s : State) (c : Bool) : (s.skipIf c).sp = s.sp := by cases c <;> rfl
@[simp] theorem State.skipIf_dt (s : State) (c : Bool) : (s.skipIf c).dt = s.dt := by cases c <;> rfl
@[simp] theorem State.skipIf_st (s : State) (c : Bool) : (s.skipIf c).st = s.st := by cases c <;> rfl
@[simp] theorem State.skipIf_fb (s : State) (c : Bool) : (s.skipIf c).fb = s.fb := by cases c <;> rfl
@[simp] theorem State.skipIf_keys (s : State) (c : Bool) : (s.skipIf c).keys = s.keys := by cases c <;> rfl
@[simp] theorem State.skipIf_mem (s : State) (c : Bool) : (s.skipIf c).mem = s.mem := by cases c <;> rfl
@[simp] theorem State.skipIf_status (s : State) (c : Bool) : (s.skipIf c).status = s.status := by cases c <;> rfl
@[simp] theorem State.skipIf_cfg (s : State) (c : Bool) : (s.skipIf c).cfg = s.cfg := by cases c <;> rfl
@[simp] theorem State.skipIf_inputs (s : State) (c : Bool) : (s.skipIf c).inputs = s.inputs := by cases c <;> rfl
@[simp] theorem State.skipIf_draws (s : State) (c : Bool) : (s.skipIf c).draws = s.draws := by cases c <;> rfl
end SkipIf

section WriteByte
@[simp] theorem State.writeByte_v (s : State) (a : Nat) (b : Byte) : (s.writeByte a b).v = s.v := by unfold State.writeByte; split <;> rfl
@[simp] theorem State.writeByte_i (s : State) (a : Nat) (b : Byte) : (s.writeByte a b).i = s.i := by unfold State.writeByte; split <;> rfl
@[simp] theorem State.writeByte_pc (s : State) (a : Nat) (b : Byte) : (s.writeByte a b).pc = s.pc := by unfold State.writeByte; split <;> rfl
@[simp] theorem State.writeByte_stack (s : State) (a : Nat) (b : Byte) : (s.writeByte a b).stack = s.stack := by unfold State.writeByte; split <;> rfl
@[simp] theorem State.writeByte_sp (s : State) (a : Nat) (b : Byte) : (s.writeByte a b).sp = s.sp := by unfold State.writeByte; split <;> rfl
@[simp] theorem State.writeByte_dt (s : State) (a : Nat) (b : Byte) : (s.writeByte a b).dt = s.dt := by unfold State.writeByte; split <;> rfl
@[simp] theorem State.writeByte_st (s : State) (a : Nat) (b : Byte) : (s.writeByte a b).st = s.st := by unfold State.writeByte; split <;> rfl
@[simp] theorem State.writeByte_fb (s : State) (a : Nat) (b : Byte) : (s.writeByte a b).fb = s.fb := by unfold State.writeByte; split <;> rfl
@[simp] theorem State.writeByte_keys (s : State) (a : Nat) (b : Byte) : (s.writeByte a b).keys = s.keys := by unfold State.writeByte; split <;> rfl
@[simp] theorem State.writeByte_status (s : State) (a : Nat) (b : Byte) : (s.writeByte a b).status = s.status := by unfold State.writeByte; split <;> rfl
@[simp] theorem State.writeByte_cfg (s : State) (a : Nat) (b : Byte) : (s.writeByte a b).cfg = s.cfg := by unfold State.writeByte; split <;> rfl
@[simp] theorem State.writeByte_inputs (s : State) (a : Nat) (b : Byte) : (s.writeByte a b).inputs = s.inputs := by unfold State.writeByte; split <;> rfl
@[simp] theorem State.writeByte_draws (s : State) (a : Nat) (b : Byte) : (s.writeByte a b).draws = s.draws := by unfold State.writeByte; split <;> rfl
end WriteByte

section Announce
@[simp] theorem State.announce_v (s : State) (inp : StepInput) : (s.announce inp).v = s.v := rfl
@[simp] theorem State.announce_i (s : State) (inp : StepInput) : (s.announce inp).i = s.i := rfl
@[simp] theorem State.announce_pc (s : State) (inp : StepInput) : (s.announce inp).pc = s.pc := rfl
@[simp] theorem State.announce_stack (s : State) (inp : StepInput) : (s.announce inp).stack = s.stack := rfl
@[simp] theorem State.announce_sp (s : State) (inp : StepInput) : (s.announce inp).sp = s.sp := rfl
@[simp] theorem State.announce_dt (s : State) (inp : StepInput) : (s.announce inp).dt = s.dt := rfl
@[simp] theorem State.announce_st (s : State) (inp : StepInput) : (s.announce inp).st = s.st := rfl
@[simp] theorem State.announce_fb (s : State) (inp : StepInput) : (s.announce inp).fb = s.fb := rfl
@[simp] theorem State.announce_keys (s : State) (inp : StepInput) : (s.announce inp).keys = s.keys := rfl
@[simp] theorem State.announce_mem (s : State) (inp : StepInput) : (s.announce inp).mem = s.mem := rfl
@[simp] theorem State.announce_status (s : State) (inp : StepInput) : (s.announce inp).status = s.status := rfl
@[simp] theorem State.announce_cfg (s : State) (inp : StepInput) : (s.announce inp).cfg = s.cfg := rfl
@[simp] theorem State.announce_inputs (s : State) (inp : StepInput) : (s.announce inp).inputs = inp :: s.inputs := rfl
@[simp] theorem State.announce_draws (s : State) (inp : StepInput) : (s.announce inp).draws = s.draws := rfl
end Announce

end Sys2Proof.Machine
end

