-- ==== Sys2Proof/Laws/Ops.lean ====
section
/-! SUPPORT. One lemma for each shared operation of Machine/Ops.lean, Operands.lean and Flags.lean, which says what it
does through the machine's own reads: `reg`, `readByte`, `input`. -/

namespace Sys2Proof.Machine

section Registers

theorem State.reg_setReg (s : State) (x r : Nibble) (b : Byte) :
    (s.setReg x b).reg r = if r = x then b else s.reg r := by
  unfold State.setReg State.reg
  by_cases h : r = x
  · subst h; simp
  · have : x.toNat ≠ r.toNat := fun e => h (BitVec.eq_of_toNat_eq e.symm)
    simp [h, Vector.getElem_set_ne _ _ this]

@[simp] theorem State.reg_setReg_same (s : State) (x : Nibble) (b : Byte) : (s.setReg x b).reg x = b := by
  simp [State.reg_setReg]

@[simp] theorem State.reg_setReg_ne (s : State) {x r : Nibble} (b : Byte) (h : r ≠ x) :
    (s.setReg x b).reg r = s.reg r := by
  simp [State.reg_setReg, h]

/-- The flag is written after the result (10_state.md R12). -/
theorem State.reg_setRegFlag (s : State) (x r : Nibble) (b : Byte) (f : Bool) :
    (s.setRegFlag x b f).reg r = if r = vf then flagByte f else if r = x then b else s.reg r := by
  simp [State.setRegFlag, State.setFlag, State.reg_setReg]

theorem State.reg_setFlag (s : State) (r : Nibble) (f : Bool) :
    (s.setFlag f).reg r = if r = vf then flagByte f else s.reg r := by
  simp [State.setFlag, State.reg_setReg]

theorem setRegsFrom_get (bs : List Byte) (v : Vector Byte 16) (k j : Nat) (hj : j < 16) :
    (setRegsFrom v k bs)[j] = if h : k ≤ j ∧ j - k < bs.length then bs[j - k]'h.2 else v[j] := by
  induction bs generalizing v k with
  | nil => simp [setRegsFrom]
  | cons b bs ih =>
    rw [setRegsFrom, ih]
    by_cases hk : k = j
    · subst hk
      have : ¬ (k + 1 ≤ k ∧ k - (k + 1) < bs.length) := by omega
      rw [dif_neg this]
      simp
    · by_cases h1 : k + 1 ≤ j ∧ j - (k + 1) < bs.length
      · have h2 : k ≤ j ∧ j - k < (b :: bs).length := by simp; omega
        have h3 : j - k = (j - (k + 1)) + 1 := by omega
        rw [dif_pos h1, dif_pos h2]
        simp [h3]
      · have h2 : ¬ (k ≤ j ∧ j - k < (b :: bs).length) := by simp; omega
        rw [dif_neg h1, dif_neg h2]
        simp [hk]

theorem State.reg_setRegs (s : State) (bs : List Byte) (r : Nibble) :
    (s.setRegs bs).reg r = if h : r.toNat < bs.length then bs[r.toNat] else s.reg r := by
  unfold State.reg
  simp only [State.setRegs_v, setRegsFrom_get]
  simp

@[simp] theorem State.reg_setIndex (s : State) (w : Word) (r : Nibble) : (s.setIndex w).reg r = s.reg r := rfl
@[simp] theorem State.reg_jump (s : State) (w : Word) (r : Nibble) : (s.jump w).reg r = s.reg r := rfl
@[simp] theorem State.reg_advancePc (s : State) (r : Nibble) : (s.advancePc).reg r = s.reg r := rfl
@[simp] theorem State.reg_takeFault (s : State) (c : FaultCause) (a w n : Word) (r : Nibble) : (s.takeFault c a w n).reg r = s.reg r := rfl
@[simp] theorem State.reg_consumeInput (s : State) (r : Nibble) : (s.consumeInput).reg r = s.reg r := rfl
@[simp] theorem State.reg_setKeys (s : State) (mask : Word) (r : Nibble) : (s.setKeys mask).reg r = s.reg r := rfl
@[simp] theorem State.reg_tick (s : State) (r : Nibble) : (s.tick).reg r = s.reg r := rfl
@[simp] theorem State.reg_announce (s : State) (inp : StepInput) (r : Nibble) : (s.announce inp).reg r = s.reg r := rfl

@[simp] theorem State.reg_skipIf (s : State) (c : Bool) (r : Nibble) : (s.skipIf c).reg r = s.reg r := by
  cases c <;> rfl

@[simp] theorem State.reg_writeByte (s : State) (a : Nat) (b : Byte) (r : Nibble) :
    (s.writeByte a b).reg r = s.reg r := by
  simp [State.reg]

end Registers

section Inputs

@[simp] theorem State.input_setIndex (s : State) (w : Word) : (s.setIndex w).input = s.input := rfl
@[simp] theorem State.input_jump (s : State) (w : Word) : (s.jump w).input = s.input := rfl
@[simp] theorem State.input_advancePc (s : State) : (s.advancePc).input = s.input := rfl
@[simp] theorem State.input_takeFault (s : State) (c : FaultCause) (a w n : Word) : (s.takeFault c a w n).input = s.input := rfl
@[simp] theorem State.input_setKeys (s : State) (mask : Word) : (s.setKeys mask).input = s.input := rfl
@[simp] theorem State.input_tick (s : State) : (s.tick).input = s.input := rfl
@[simp] theorem State.input_setReg (s : State) (x : Nibble) (b : Byte) : (s.setReg x b).input = s.input := rfl
@[simp] theorem State.input_setRegs (s : State) (bs : List Byte) : (s.setRegs bs).input = s.input := rfl
@[simp] theorem State.input_setFlag (s : State) (f : Bool) : (s.setFlag f).input = s.input := rfl
@[simp] theorem State.input_setRegFlag (s : State) (x : Nibble) (r : Byte) (f : Bool) : (s.setRegFlag x r f).input = s.input := rfl
@[simp] theorem State.input_announce (s : State) (inp : StepInput) : (s.announce inp).input = inp := rfl

end Inputs

section Bytes

@[simp] theorem State.readByte_setIndex (s : State) (w : Word) (a' : Nat) : (s.setIndex w).readByte a' = s.readByte a' := rfl
@[simp] theorem State.readByte_jump (s : State) (w : Word) (a' : Nat) : (s.jump w).readByte a' = s.readByte a' := rfl
@[simp] theorem State.readByte_advancePc (s : State) (a' : Nat) : (s.advancePc).readByte a' = s.readByte a' := rfl
@[simp] theorem State.readByte_takeFault (s : State) (c : FaultCause) (a w n : Word) (a' : Nat) : (s.takeFault c a w n).readByte a' = s.readByte a' := rfl
@[simp] theorem State.readByte_consumeInput (s : State) (a' : Nat) : (s.consumeInput).readByte a' = s.readByte a' := rfl
@[simp] theorem State.readByte_setKeys (s : State) (mask : Word) (a' : Nat) : (s.setKeys mask).readByte a' = s.readByte a' := rfl
@[simp] theorem State.readByte_tick (s : State) (a' : Nat) : (s.tick).readByte a' = s.readByte a' := rfl
@[simp] theorem State.readByte_setReg (s : State) (x : Nibble) (b : Byte) (a' : Nat) : (s.setReg x b).readByte a' = s.readByte a' := rfl
@[simp] theorem State.readByte_setRegs (s : State) (bs : List Byte) (a' : Nat) : (s.setRegs bs).readByte a' = s.readByte a' := rfl
@[simp] theorem State.readByte_setFlag (s : State) (f : Bool) (a' : Nat) : (s.setFlag f).readByte a' = s.readByte a' := rfl
@[simp] theorem State.readByte_setRegFlag (s : State) (x : Nibble) (r : Byte) (f : Bool) (a' : Nat) : (s.setRegFlag x r f).readByte a' = s.readByte a' := rfl
@[simp] theorem State.readByte_announce (s : State) (inp : StepInput) (a' : Nat) : (s.announce inp).readByte a' = s.readByte a' := rfl

@[simp] theorem State.readByte_skipIf (s : State) (c : Bool) (a : Nat) :
    (s.skipIf c).readByte a = s.readByte a := by
  cases c <;> rfl

theorem State.readByte_writeByte_same (s : State) {a : Nat} (b : Byte) (ha : a < memSize)
    (h : s.mem.rises = true) : (s.writeByte a b).readByte a = b := by
  simp [State.readByte, State.writeByte, ha, Memory.read_write_same a b h]

theorem State.readByte_writeByte_ne (s : State) {a a' : Nat} (b : Byte) (h : a' ≠ a) :
    (s.writeByte a b).readByte a' = s.readByte a' := by
  unfold State.writeByte
  split
  · simp [State.readByte, Memory.read_write_ne b h]
  · rfl

theorem State.rises_writeByte {s : State} (a : Nat) (b : Byte) (h : s.mem.rises = true) :
    (s.writeByte a b).mem.rises = true := by
  unfold State.writeByte Memory.write
  split
  · simp only
    split
    · exact Memory.rises_drop a h
    · exact Memory.rises_put a b h
  · exact h

theorem State.wf_writeByte {s : State} (a : Nat) (b : Byte) (h : s.mem.wf s.cfg = true) :
    (s.writeByte a b).mem.wf s.cfg = true := by
  unfold State.writeByte
  split
  · next ha => exact Memory.wf_write b ha h
  · exact h

/-- A run of stores changes memory alone. -/
theorem State.writeBytes_frame (bs : List Byte) (s : State) (a : Nat) :
    ∃ m, s.writeBytes a bs = { s with mem := m } := by
  induction bs generalizing s a with
  | nil => exact ⟨s.mem, rfl⟩
  | cons b bs ih =>
    obtain ⟨m, hm⟩ := ih (s.writeByte a b) (a + 1)
    refine ⟨m, ?_⟩
    rw [State.writeBytes, hm]
    unfold State.writeByte
    split <;> rfl

theorem State.wf_writeBytes (bs : List Byte) {s : State} (a : Nat) (h : s.mem.wf s.cfg = true) :
    (s.writeBytes a bs).mem.wf s.cfg = true := by
  induction bs generalizing s a with
  | nil => exact h
  | cons b bs ih =>
    have := ih (s := s.writeByte a b) (a + 1) (by simpa using State.wf_writeByte a b h)
    rw [State.writeBytes]
    simpa using this

/-- What a run of stores leaves at each address: the byte stored there, or the byte there before. -/
theorem State.readByte_writeBytes (bs : List Byte) {s : State} {a : Nat} (a' : Nat)
    (hfit : a + bs.length ≤ memSize) (h : s.mem.rises = true) :
    (s.writeBytes a bs).readByte a' =
      if hk : a ≤ a' ∧ a' - a < bs.length then bs[a' - a]'hk.2 else s.readByte a' := by
  induction bs generalizing s a with
  | nil => simp [State.writeBytes]
  | cons b bs ih =>
    simp only [List.length_cons] at hfit
    rw [State.writeBytes, ih (by omega) (State.rises_writeByte a b h)]
    by_cases hk : a = a'
    · subst hk
      have h1 : ¬ (a + 1 ≤ a ∧ a - (a + 1) < bs.length) := by omega
      simp [State.readByte_writeByte_same s b (show a < memSize by omega) h]
    · by_cases h1 : a + 1 ≤ a' ∧ a' - (a + 1) < bs.length
      · have h2 : a ≤ a' ∧ a' - a < (b :: bs).length := by simp; omega
        have h3 : a' - a = (a' - (a + 1)) + 1 := by omega
        rw [dif_pos h1, dif_pos h2]
        simp [h3]
      · have h2 : ¬ (a ≤ a' ∧ a' - a < (b :: bs).length) := by simp; omega
        rw [dif_neg h1, dif_neg h2, State.readByte_writeByte_ne s b (Ne.symm hk)]

theorem State.length_readBytes (s : State) (a n : Nat) : (s.readBytes a n).length = n := by
  simp [State.readBytes]

theorem State.getElem_readBytes (s : State) (a n k : Nat) (h : k < (s.readBytes a n).length) :
    (s.readBytes a n)[k] = s.readByte (a + k) := by
  simp [State.readBytes]

theorem spanFits_iff (a n : Nat) : spanFits a n = true ↔ n = 0 ∨ a + n ≤ memSize := by
  simp only [spanFits, Bool.or_eq_true, beq_iff_eq, decide_eq_true_eq, memSize]
  omega

/-- A load from `I` gives the bytes there, exactly when every address fits. -/
theorem State.loadSpan_eq (s : State) (n : Nat) :
    s.loadSpan n = if n = 0 ∨ s.i.toNat + n ≤ memSize then some (s.readBytes s.i.toNat n) else none := by
  unfold State.loadSpan
  by_cases h : spanFits s.i.toNat n = true
  · rw [if_pos h, if_pos ((spanFits_iff _ _).1 h)]
  · rw [if_neg h, if_neg (fun e => h ((spanFits_iff _ _).2 e))]

/-- A store from `I` writes all its bytes, exactly when every address fits. -/
theorem State.storeSpan_eq (s : State) (bs : List Byte) :
    s.storeSpan bs =
      if bs.length = 0 ∨ s.i.toNat + bs.length ≤ memSize then some (s.writeBytes s.i.toNat bs) else none := by
  unfold State.storeSpan
  by_cases h : spanFits s.i.toNat bs.length = true
  · rw [if_pos h, if_pos ((spanFits_iff _ _).1 h)]
  · rw [if_neg h, if_neg (fun e => h ((spanFits_iff _ _).2 e))]

end Bytes

section Stack

/-- A push succeeds exactly below 16 entries. -/
theorem State.push_eq_none (s : State) (ra : Word) : s.push ra = none ↔ s.sp.val = 16 := by
  have := s.sp.isLt
  unfold State.push
  split <;> simp <;> omega

/-- What a successful push does. -/
theorem State.push_eq_some {s t : State} {ra : Word} (h : s.push ra = some t) :
    ∃ hlt : s.sp.val < 16,
      t = { s with stack := s.stack.set s.sp.val ra hlt, sp := ⟨s.sp.val + 1, by omega⟩ } := by
  unfold State.push at h
  split at h
  · next hlt => exact ⟨hlt, (Option.some.inj h).symm⟩
  · cases h

/-- A pop succeeds exactly on a stack with an entry. -/
theorem State.pop_eq_none (s : State) : s.pop = none ↔ s.sp.val = 0 := by
  unfold State.pop
  split <;> simp [*]

/-- What a successful pop does. -/
theorem State.pop_eq_some {s t : State} {ra : Word} (h : s.pop = some (ra, t)) :
    ∃ (_ : s.sp.val ≠ 0) (hlt : s.sp.val - 1 < 16),
      ra = s.stack[s.sp.val - 1] ∧ t = { s with sp := ⟨s.sp.val - 1, by omega⟩ } := by
  unfold State.pop at h
  split at h
  · cases h
  · next hne =>
    have hlt : s.sp.val - 1 < 16 := by have := s.sp.isLt; omega
    obtain ⟨h1, h2⟩ := Prod.mk.inj (Option.some.inj h)
    exact ⟨hne, hlt, h1.symm, h2.symm⟩

end Stack

section Operands

theorem State.regsUpTo_length (s : State) (x : Nibble) : (s.regsUpTo x).length = x.toNat + 1 := by
  have := x.isLt
  simp [State.regsUpTo]
  omega

theorem State.regsUpTo_get (s : State) (x : Nibble) (k : Nat) (h : k < (s.regsUpTo x).length) (hk : k < 16) :
    (s.regsUpTo x)[k] = s.reg (BitVec.ofNat 4 k) := by
  have hm : k % 16 = k := Nat.mod_eq_of_lt hk
  simp [State.regsUpTo, State.reg, hm]

theorem State.keyHeld_eq (s : State) (k : Byte) :
    s.keyHeld k = if h : k.toNat < 16 then some s.keys[k.toNat] else none := rfl

theorem zextAddr_toNat (nnn : Addr12) : (zextAddr nnn).toNat = nnn.toNat := by
  have := nnn.isLt
  simp [zextAddr]
  omega

theorem State.memBoundsInfo_toNat (s : State) : s.memBoundsInfo.toNat = max s.i.toNat 0x1000 := by
  have := s.i.isLt
  simp [State.memBoundsInfo]
  omega

theorem glyphAddr_toNat (cfg : Config) (v : Byte) :
    (glyphAddr cfg v).toNat = cfg.fontBase.val + 5 * (v.toNat % 16) := by
  have h1 := cfg.fontBase.isLt
  have h2 : (v &&& 0x0F#8).toNat = v.toNat % 16 := by
    rw [BitVec.toNat_and]
    exact Nat.and_two_pow_sub_one_eq_mod v.toNat 4
  have h3 : v.toNat % 16 < 16 := Nat.mod_lt _ (by decide)
  simp only [glyphAddr, h2, BitVec.toNat_ofNat]
  omega

end Operands

section Fetch

theorem State.fetchWord_eq_none (s : State) : s.fetchWord = none ↔ s.pc.toNat + 1 > 0xFFF := by
  unfold State.fetchWord
  split <;> simp <;> omega

theorem State.fetchWord_eq_some (s : State) (h : s.pc.toNat + 1 ≤ 0xFFF) :
    s.fetchWord = some (wordOfBytes (s.readByte s.pc.toNat) (s.readByte (s.pc.toNat + 1))) := by
  unfold State.fetchWord
  rw [if_neg (by omega)]

@[simp] theorem State.fetchWord_announce (s : State) (inp : StepInput) :
    (s.announce inp).fetchWord = s.fetchWord := rfl

end Fetch

section Load

/-- Load changes memory alone. -/
theorem State.loadAt_frame (image : List Byte) (s : State) (a : Nat) :
    ∃ m, s.loadAt a image = { s with mem := m } := by
  induction image generalizing s a with
  | nil => exact ⟨s.mem, rfl⟩
  | cons b bs ih =>
    obtain ⟨m, hm⟩ := ih (if a ≤ 0xFFF then s.writeByte a b else s) (a + 1)
    refine ⟨m, ?_⟩
    rw [State.loadAt, hm]
    unfold State.writeByte
    split
    · split <;> rfl
    · rfl

theorem State.wf_loadAt (image : List Byte) {s : State} (a : Nat) (h : s.mem.wf s.cfg = true) :
    (s.loadAt a image).mem.wf s.cfg = true := by
  induction image generalizing s a with
  | nil => exact h
  | cons b bs ih =>
    rw [State.loadAt]
    split
    · have := ih (s := s.writeByte a b) (a + 1) (by simpa using State.wf_writeByte a b h)
      simpa using this
    · exact ih (a + 1) h

/-- Load, as one read (20_memory.md R47): the image byte at every address it reaches, the old byte elsewhere. -/
theorem State.readByte_loadAt (image : List Byte) {s : State} {a : Nat} (a' : Nat) (h : s.mem.wf s.cfg = true) :
    (s.loadAt a image).readByte a' =
      if hk : a ≤ a' ∧ a' - a < image.length ∧ a' ≤ 0xFFF then image[a' - a]'hk.2.1 else s.readByte a' := by
  induction image generalizing s a with
  | nil => simp [State.loadAt]
  | cons b bs ih =>
    have hwf : (if a ≤ 0xFFF then s.writeByte a b else s).mem.wf
        (if a ≤ 0xFFF then s.writeByte a b else s).cfg = true := by
      split
      · simpa using State.wf_writeByte a b h
      · exact h
    rw [State.loadAt, ih hwf]
    by_cases h1 : a + 1 ≤ a' ∧ a' - (a + 1) < bs.length ∧ a' ≤ 0xFFF
    · have e : a' - a = (a' - (a + 1)) + 1 := by omega
      rw [dif_pos h1, dif_pos (by simp only [List.length_cons]; omega)]
      simp [e]
    · rw [dif_neg h1]
      by_cases h2 : a' = a ∧ a ≤ 0xFFF
      · obtain ⟨rfl, h3⟩ := h2
        rw [if_pos h3, State.readByte_writeByte_same _ _ (by unfold memSize; omega) (Memory.wf_rises h),
          dif_pos (by simp only [List.length_cons]; omega)]
        simp
      · rw [dif_neg (by simp only [List.length_cons]; omega)]
        split
        · exact State.readByte_writeByte_ne _ _ (by omega)
        · rfl

end Load

section Reset

/-- The reset contents at the font (10_state.md R33). -/
theorem resetByte_font (cfg : Config) {k : Nat} (h : k < 80) :
    resetByte cfg (cfg.fontBase.val + k) = cfg.fontData[k] := by
  have hb := cfg.fontBase.isLt
  have hd : cfg.fontBase.val ≤ cfg.fontBase.val + k ∧ cfg.fontBase.val + k - cfg.fontBase.val < 80 := by omega
  unfold resetByte
  rw [if_neg (by unfold progBase; omega), dif_pos hd]
  simp

/-- The reset contents everywhere else (10_state.md R33). -/
theorem resetByte_other (cfg : Config) {a : Nat} (h : a < cfg.fontBase.val ∨ cfg.fontBase.val + 80 ≤ a) :
    resetByte cfg a = 0 := by
  unfold resetByte
  split
  · rfl
  · rw [dif_neg (by omega)]

end Reset

section HostUpdates

/-- A timer counts down to zero and stays there (60_exceptions.md R215). -/
theorem countDown_toNat (t : Byte) : (countDown t).toNat = t.toNat - 1 := by
  have := t.isLt
  unfold countDown
  split
  · rw [BitVec.toNat_sub]; simp; omega
  · omega

/-- Each key follows its bit of the mask (60_exceptions.md R220). -/
theorem State.setKeys_getElem (s : State) (mask : Word) (k : Nat) (h : k < 16) :
    (s.setKeys mask).keys[k] = mask.getLsbD k := by
  simp only [State.setKeys, Vector.getElem_ofFn]

end HostUpdates

end Sys2Proof.Machine
end

