-- ==== Sys2Proof/Laws/Frames.lean ====
section
/-! SUPPORT. What each update of State leaves alone, in the terms of Safety (ChangesOnly), and how frames compose. -/

namespace Sys2Proof.Machine

theorem Part.same_refl (p : Part) (s : State) : p.same s s := by
  cases p <;> simp [Part.same]

theorem Part.same_trans {p : Part} {s t u : State} (h : p.same s t) (h' : p.same t u) : p.same s u := by
  cases p <;> simp_all [Part.same]

theorem ChangesOnly.refl (ps : List Part) (s : State) : ChangesOnly ps s s :=
  ⟨fun p _ => p.same_refl s, rfl, rfl, rfl⟩

theorem ChangesOnly.mono {ps qs : List Part} {s t : State} (h : ChangesOnly ps s t) (hq : ∀ p ∈ ps, p ∈ qs) :
    ChangesOnly qs s t :=
  ⟨fun p hp => h.parts p (fun h' => hp (hq p h')), h.cfg, h.inputs⟩

theorem ChangesOnly.trans {ps : List Part} {s t u : State} (h : ChangesOnly ps s t) (h' : ChangesOnly ps t u) :
    ChangesOnly ps s u :=
  ⟨fun p hp => Part.same_trans (h.parts p hp) (h'.parts p hp), h'.cfg.trans h.cfg,
    h'.inputs.1.trans h.inputs.1, h'.inputs.2.trans h.inputs.2⟩

/-- An update of the fields of one part, given as the record it leaves. -/
theorem changesOnly_regs (s : State) (v : Vector Byte 16) : ChangesOnly [.regs] s { s with v := v } := by
  refine ⟨fun p hp => ?_, rfl, rfl, rfl⟩
  cases p <;> simp [Part.same, State.readByte] at hp ⊢

theorem changesOnly_index (s : State) (w : Word) : ChangesOnly [.index] s { s with i := w } := by
  refine ⟨fun p hp => ?_, rfl, rfl, rfl⟩
  cases p <;> simp [Part.same, State.reg, State.readByte] at hp ⊢

theorem changesOnly_pc (s : State) (w : Word) : ChangesOnly [.pc] s { s with pc := w } := by
  refine ⟨fun p hp => ?_, rfl, rfl, rfl⟩
  cases p <;> simp [Part.same, State.reg, State.readByte] at hp ⊢

theorem changesOnly_pc_stack (s : State) (st : Vector Word 16) (sp : Fin 17) (w : Word) :
    ChangesOnly [.pc, .stack] s { s with stack := st, sp := sp, pc := w } := by
  refine ⟨fun p hp => ?_, rfl, rfl, rfl⟩
  cases p <;> simp [Part.same, State.reg, State.readByte] at hp ⊢

theorem changesOnly_dt (s : State) (b : Byte) : ChangesOnly [.dt] s { s with dt := b } := by
  refine ⟨fun p hp => ?_, rfl, rfl, rfl⟩
  cases p <;> simp [Part.same, State.reg, State.readByte] at hp ⊢

theorem changesOnly_st (s : State) (b : Byte) : ChangesOnly [.st] s { s with st := b } := by
  refine ⟨fun p hp => ?_, rfl, rfl, rfl⟩
  cases p <;> simp [Part.same, State.reg, State.readByte] at hp ⊢

theorem changesOnly_fb (s : State) (fb : Framebuffer) : ChangesOnly [.fb] s { s with fb := fb } := by
  refine ⟨fun p hp => ?_, rfl, rfl, rfl⟩
  cases p <;> simp [Part.same, State.reg, State.readByte] at hp ⊢

theorem changesOnly_keys (s : State) (ks : Vector Bool 16) : ChangesOnly [.keys] s { s with keys := ks } := by
  refine ⟨fun p hp => ?_, rfl, rfl, rfl⟩
  cases p <;> simp [Part.same, State.reg, State.readByte] at hp ⊢

theorem changesOnly_mem (s : State) (m : Memory) : ChangesOnly [.mem] s { s with mem := m } := by
  refine ⟨fun p hp => ?_, rfl, rfl, rfl⟩
  cases p <;> simp [Part.same, State.reg] at hp ⊢

theorem changesOnly_status (s : State) (st : Status) : ChangesOnly [.status] s { s with status := st } := by
  refine ⟨fun p hp => ?_, rfl, rfl, rfl⟩
  cases p <;> simp [Part.same, State.reg, State.readByte] at hp ⊢

theorem changesOnly_skipIf (s : State) (c : Bool) : ChangesOnly [.pc] s (s.skipIf c) := by
  cases c
  · exact ChangesOnly.refl _ _
  · exact changesOnly_pc _ _

theorem changesOnly_setRegFlag (s : State) (x : Nibble) (b : Byte) (f : Bool) :
    ChangesOnly [.regs] s (s.setRegFlag x b f) :=
  changesOnly_regs s _

theorem changesOnly_writeBytes (s : State) (a : Nat) (bs : List Byte) :
    ChangesOnly [.mem] s (s.writeBytes a bs) := by
  obtain ⟨m, e⟩ := State.writeBytes_frame bs s a
  rw [e]
  exact changesOnly_mem s m

theorem changesOnly_loadAt (s : State) (a : Nat) (image : List Byte) :
    ChangesOnly [.mem] s (s.loadAt a image) := by
  obtain ⟨m, e⟩ := State.loadAt_frame image s a
  rw [e]
  exact changesOnly_mem s m

end Sys2Proof.Machine
end

