-- ==== Sys2Proof/Laws/Graphics.lean ====
section
/-! SUPPORT. The sprite loops of 43_graphics.md R150, pixel by pixel: one flip, one sprite row, a run of rows. -/

namespace Sys2Proof.Machine

section Pixels

theorem pixel_setPixel (fb : Framebuffer) {y x : Nat} (b : Bool) (hy : y < 32) (hx : x < 64) (y' x' : Nat) :
    pixel (setPixel fb y x b) y' x' = if y' = y ∧ x' = x then b else pixel fb y' x' := by
  unfold pixel setPixel
  rw [dif_pos (show y < 32 ∧ x < 64 from ⟨hy, hx⟩)]
  by_cases h : y' < 32 ∧ x' < 64
  · rw [dif_pos h, dif_pos h]
    by_cases h1 : y' = y
    · subst h1
      by_cases h2 : x' = x
      · subst h2; simp
      · simp [h2, Vector.getElem_set_ne _ _ (Ne.symm h2)]
    · simp [h1, Vector.getElem_set_ne _ _ (Ne.symm h1)]
  · rw [dif_neg h, dif_neg h, if_neg (by omega)]

/-- Two framebuffers with equal pixels are equal. -/
theorem framebuffer_ext {f g : Framebuffer}
    (h : ∀ y x, y < 32 → x < 64 → pixel f y x = pixel g y x) : f = g := by
  apply Vector.ext
  intro y hy
  apply Vector.ext
  intro x hx
  have := h y x hy hx
  unfold pixel at this
  rwa [dif_pos ⟨hy, hx⟩, dif_pos ⟨hy, hx⟩] at this

theorem pixel_cleared (y x : Nat) : pixel clearedFramebuffer y x = false := by
  unfold pixel clearedFramebuffer
  split <;> simp

end Pixels

section Rows

theorem Drawing.flip_pixel (d : Drawing) {y x : Nat} (hy : y < 32) (hx : x < 64) (y' x' : Nat) :
    pixel (d.flip y x).fb y' x' = (pixel d.fb y' x' ^^ decide (y' = y ∧ x' = x)) := by
  rw [Drawing.flip, pixel_setPixel _ _ hy hx]
  by_cases h : y' = y ∧ x' = x
  · obtain ⟨rfl, rfl⟩ := h; simp
  · simp [h]

/-- The column of the sprite a screen column shows. -/
abbrev spriteColumn (x0 px : Nat) : Nat := (px + 64 - x0) % 64

/-- The first `k` columns of a sprite row: which pixels are flipped, and whether one is turned off. -/
theorem Drawing.columns_spec (d : Drawing) {x0 y : Nat} (b : Byte) (hx0 : x0 < 64) (hy : y < 32) (k : Nat)
    (hk : k ≤ 8) :
    let e := (List.range k).foldl (fun d c => d.column x0 y b c) d
    (∀ y' x', x' < 64 → pixel e.fb y' x' =
      (pixel d.fb y' x' ^^
        (decide (y' = y) && decide (spriteColumn x0 x' < k) && b.getLsbD (7 - spriteColumn x0 x')))) ∧
    (e.hit = true ↔ d.hit = true ∨
      ∃ px, px < 64 ∧ spriteColumn x0 px < k ∧ b.getLsbD (7 - spriteColumn x0 px) = true ∧
        pixel d.fb y px = true) := by
  induction k with
  | zero => simp
  | succ k ih =>
    obtain ⟨ihp, ihh⟩ := ih (by omega)
    simp only [List.range_succ, List.foldl_append, List.foldl_cons, List.foldl_nil]
    generalize (List.range k).foldl (fun d c => d.column x0 y b c) d = e at ihp ihh
    have hcol : spriteColumn x0 ((x0 + k) % 64) = k := by unfold spriteColumn; omega
    have hlt : (x0 + k) % 64 < 64 := Nat.mod_lt _ (by decide)
    have huniq : ∀ x', x' < 64 → (spriteColumn x0 x' = k ↔ x' = (x0 + k) % 64) := by
      intro x' hx'; unfold spriteColumn; omega
    have hpix : pixel e.fb y ((x0 + k) % 64) = pixel d.fb y ((x0 + k) % 64) := by
      rw [ihp y _ hlt, hcol]; simp
    unfold Drawing.column
    by_cases hb : b.getLsbD (7 - k) = true
    · rw [if_pos hb]
      refine ⟨?_, ?_⟩
      · intro y' x' hx'
        rw [Drawing.flip_pixel e hy hlt, ihp y' x' hx', Bool.xor_assoc]
        congr 1
        by_cases hy' : y' = y
        · by_cases hc : spriteColumn x0 x' = k
          · have hx'' := (huniq x' hx').1 hc
            simp [hy', hc, ← hx'', hb]
          · have hx'' : ¬ x' = (x0 + k) % 64 := fun e => hc ((huniq x' hx').2 e)
            have hle : spriteColumn x0 x' < k + 1 ↔ spriteColumn x0 x' < k := by omega
            simp [hy', hx'', hle]
        · simp [hy']
      · simp only [Drawing.flip, Bool.or_eq_true, ihh, hpix]
        constructor
        · rintro ((h | ⟨px, h1, h2, h3, h4⟩) | h)
          · exact .inl h
          · exact .inr ⟨px, h1, by omega, h3, h4⟩
          · exact .inr ⟨_, hlt, by omega, by rw [hcol]; exact hb, h⟩
        · rintro (h | ⟨px, h1, h2, h3, h4⟩)
          · exact .inl (.inl h)
          · by_cases hc : spriteColumn x0 px = k
            · rw [(huniq px h1).1 hc] at h4
              exact .inr h4
            · exact .inl (.inr ⟨px, h1, by omega, h3, h4⟩)
    · rw [if_neg hb]
      refine ⟨?_, ?_⟩
      · intro y' x' hx'
        rw [ihp y' x' hx']
        congr 1
        by_cases hc : spriteColumn x0 x' = k
        · simp [hc, hb]
        · have hle : spriteColumn x0 x' < k + 1 ↔ spriteColumn x0 x' < k := by omega
          simp [hle]
      · rw [ihh]
        constructor
        · rintro (h | ⟨px, h1, h2, h3, h4⟩)
          · exact .inl h
          · exact .inr ⟨px, h1, by omega, h3, h4⟩
        · rintro (h | ⟨px, h1, h2, h3, h4⟩)
          · exact .inl h
          · by_cases hc : spriteColumn x0 px = k
            · rw [hc] at h3; exact absurd h3 hb
            · exact .inr ⟨px, h1, by omega, h3, h4⟩

/-- One sprite row. -/
theorem Drawing.row_spec (d : Drawing) {x0 y : Nat} (b : Byte) (hx0 : x0 < 64) (hy : y < 32) :
    (∀ y' x', x' < 64 → pixel (d.row x0 y b).fb y' x' =
      (pixel d.fb y' x' ^^
        (decide (y' = y) && decide (spriteColumn x0 x' < 8) && b.getLsbD (7 - spriteColumn x0 x')))) ∧
    ((d.row x0 y b).hit = true ↔ d.hit = true ∨
      ∃ px, px < 64 ∧ spriteColumn x0 px < 8 ∧ b.getLsbD (7 - spriteColumn x0 px) = true ∧
        pixel d.fb y px = true) :=
  Drawing.columns_spec d b hx0 hy 8 (by decide)

/-- A run of sprite rows that all lie on the screen: row `y'` shows sprite byte `y' - y`. -/
theorem Drawing.rows_spec (bs : List Byte) (d : Drawing) {x0 y : Nat} (hx0 : x0 < 64)
    (hy : y + bs.length ≤ 32) :
    (∀ y' x', x' < 64 → pixel (d.rows x0 y bs).fb y' x' =
      (pixel d.fb y' x' ^^
        (decide (y ≤ y' ∧ y' < y + bs.length) && decide (spriteColumn x0 x' < 8) &&
          (bs[y' - y]?.getD 0).getLsbD (7 - spriteColumn x0 x')))) ∧
    ((d.rows x0 y bs).hit = true ↔ d.hit = true ∨
      ∃ py px, y ≤ py ∧ py < y + bs.length ∧ px < 64 ∧ spriteColumn x0 px < 8 ∧
        (bs[py - y]?.getD 0).getLsbD (7 - spriteColumn x0 px) = true ∧ pixel d.fb py px = true) := by
  induction bs generalizing d y with
  | nil =>
    refine ⟨fun y' x' _ => ?_, ?_⟩
    · have : ¬ (y ≤ y' ∧ y' < y + ([] : List Byte).length) := by simp
      rw [decide_eq_false this]; simp [Drawing.rows]
    · simp only [Drawing.rows, List.length_nil]
      constructor
      · exact .inl
      · rintro (h | ⟨py, px, h1, h2, -⟩)
        · exact h
        · omega
  | cons b bs ih =>
    simp only [List.length_cons] at hy
    obtain ⟨rp, rh⟩ := Drawing.row_spec d b hx0 (show y < 32 by omega)
    obtain ⟨ip, ih⟩ := ih (d.row x0 y b) (y := y + 1) (by omega)
    have hget : ∀ y', y + 1 ≤ y' → (b :: bs)[y' - y]? = bs[y' - (y + 1)]? := by
      intro y' h
      have : y' - y = (y' - (y + 1)) + 1 := by omega
      rw [this, List.getElem?_cons_succ]
    refine ⟨fun y' x' hx' => ?_, ?_⟩
    · rw [Drawing.rows, ip y' x' hx', rp y' x' hx', Bool.xor_assoc]
      congr 1
      by_cases h1 : y' = y
      · subst h1
        have h2 : ¬ (y' + 1 ≤ y' ∧ y' < y' + 1 + bs.length) := by omega
        have h3 : y' ≤ y' ∧ y' < y' + (b :: bs).length := by simp
        rw [decide_eq_false h2, decide_eq_true h3]
        simp
      · by_cases h2 : y + 1 ≤ y' ∧ y' < y + 1 + bs.length
        · have h3 : y ≤ y' ∧ y' < y + (b :: bs).length := by simp; omega
          rw [decide_eq_true h2, decide_eq_true h3, hget y' h2.1]
          simp [h1]
        · have h3 : ¬ (y ≤ y' ∧ y' < y + (b :: bs).length) := by simp; omega
          rw [decide_eq_false h2, decide_eq_false h3]
          simp [h1]
    · rw [Drawing.rows, ih, rh]
      have hpix : ∀ py px, y + 1 ≤ py → px < 64 → pixel (d.row x0 y b).fb py px = pixel d.fb py px := by
        intro py px h1 h2
        rw [rp py px h2]
        simp [show py ≠ y by omega]
      constructor
      · rintro ((h | ⟨px, h1, h2, h3, h4⟩) | ⟨py, px, h1, h2, h3, h4, h5, h6⟩)
        · exact .inl h
        · exact .inr ⟨y, px, Nat.le_refl _, by simp, h1, h2, by simpa using h3, h4⟩
        · rw [hpix py px h1 h3] at h6
          exact .inr ⟨py, px, by omega, by simp; omega, h3, h4, by rwa [hget py h1], h6⟩
      · rintro (h | ⟨py, px, h1, h2, h3, h4, h5, h6⟩)
        · exact .inl (.inl h)
        · simp only [List.length_cons] at h2
          by_cases h7 : py = y
          · subst h7
            exact .inl (.inr ⟨px, h3, h4, by simpa using h5, h6⟩)
          · have h8 : y + 1 ≤ py := by omega
            refine .inr ⟨py, px, h8, by omega, h3, h4, ?_, ?_⟩
            · rwa [hget py h8] at h5
            · rwa [hpix py px h8 h3]

end Rows

end Sys2Proof.Machine
end

