-- ==== Sys2Proof/Laws/Meanings.lean ====
section
/-! SUPPORT. For each meaning with a fault of its own, the two cases it has (60_exceptions.md R202): when it faults,
and what it does when it does not. -/

namespace Sys2Proof.Machine

section ControlFlow

theorem execRet_empty {s : State} (h : s.sp.val = 0) :
    execRet s = .next (s.takeFault .stackUnderflow (s.pc - 2) (encode .ret) 0) := by
  simp only [execRet, (State.pop_eq_none s).2 h]
  rfl

theorem execRet_pops {s : State} (h : s.sp.val ≠ 0) (hlt : s.sp.val - 1 < 16) :
    execRet s =
      .next { s with sp := ⟨s.sp.val - 1, by omega⟩, pc := s.stack[s.sp.val - 1] } := by
  simp only [execRet, State.pop, dif_neg h]
  rfl

theorem execCall_full {s : State} (nnn : Addr12) (h : s.sp.val = 16) :
    execCall nnn s = .next (s.takeFault .stackOverflow (s.pc - 2) (encode (.call nnn)) 0) := by
  simp only [execCall, (State.push_eq_none s s.pc).2 h]
  rfl

theorem execCall_pushes {s : State} (nnn : Addr12) (h : s.sp.val < 16) :
    execCall nnn s = .next
      { s with stack := s.stack.set s.sp.val s.pc h, sp := ⟨s.sp.val + 1, by omega⟩, pc := zextAddr nnn } := by
  simp only [execCall, State.push, dif_pos h]
  rfl

end ControlFlow

section Keys

theorem setWidth_eq_ofNat (v : Byte) : v.setWidth 16 = BitVec.ofNat 16 v.toNat := by
  apply BitVec.eq_of_toNat_eq
  simp

theorem execSkpVx_key {s : State} {x : Nibble} (h : (s.reg x).toNat < 16) :
    execSkpVx x s = .next (s.skipIf s.keys[(s.reg x).toNat]) := by
  simp only [execSkpVx, State.keyHeld_eq, dif_pos h]

theorem execSkpVx_noKey {s : State} {x : Nibble} (h : (s.reg x).toNat > 15) :
    execSkpVx x s = .next
      (s.takeFault .keyIndex (s.pc - 2) (encode (.skpVx x)) (BitVec.ofNat 16 (s.reg x).toNat)) := by
  simp only [execSkpVx, State.keyHeld_eq, dif_neg (show ¬ (s.reg x).toNat < 16 by omega), setWidth_eq_ofNat]
  rfl

theorem execSknpVx_key {s : State} {x : Nibble} (h : (s.reg x).toNat < 16) :
    execSknpVx x s = .next (s.skipIf (!s.keys[(s.reg x).toNat])) := by
  simp only [execSknpVx, State.keyHeld_eq, dif_pos h]

theorem execSknpVx_noKey {s : State} {x : Nibble} (h : (s.reg x).toNat > 15) :
    execSknpVx x s = .next
      (s.takeFault .keyIndex (s.pc - 2) (encode (.sknpVx x)) (BitVec.ofNat 16 (s.reg x).toNat)) := by
  simp only [execSknpVx, State.keyHeld_eq, dif_neg (show ¬ (s.reg x).toNat < 16 by omega), setWidth_eq_ofNat]
  rfl

end Keys

section Memory

theorem execLdBVx_stores {s : State} (x : Nibble) (h : s.i.toNat + 2 ≤ 0xFFF) :
    execLdBVx x s = .next (s.writeBytes s.i.toNat (decimalDigits (s.reg x))) := by
  have hl : (decimalDigits (s.reg x)).length = 3 := rfl
  unfold execLdBVx
  rw [State.storeSpan_eq, if_pos (by rw [hl]; unfold memSize; omega)]

theorem execLdBVx_faults {s : State} (x : Nibble) (h : s.i.toNat + 2 > 0xFFF) :
    execLdBVx x s =
      .next (s.takeFault .memBounds (s.pc - 2) (encode (.ldBVx x)) s.memBoundsInfo) := by
  have hl : (decimalDigits (s.reg x)).length = 3 := rfl
  unfold execLdBVx
  rw [State.storeSpan_eq, if_neg (by rw [hl]; unfold memSize; omega)]
  rfl

theorem execLdMemIVx_stores {s : State} {x : Nibble} (h : s.i.toNat + x.toNat ≤ 0xFFF) :
    execLdMemIVx x s = .next (s.writeBytes s.i.toNat (s.regsUpTo x)) := by
  unfold execLdMemIVx
  rw [State.storeSpan_eq, if_pos (by rw [State.regsUpTo_length]; unfold memSize; omega)]

theorem execLdMemIVx_faults {s : State} {x : Nibble} (h : s.i.toNat + x.toNat > 0xFFF) :
    execLdMemIVx x s =
      .next (s.takeFault .memBounds (s.pc - 2) (encode (.ldMemIVx x)) s.memBoundsInfo) := by
  unfold execLdMemIVx
  rw [State.storeSpan_eq, if_neg (by rw [State.regsUpTo_length]; unfold memSize; omega)]
  rfl

theorem execLdVxMemI_loads {s : State} {x : Nibble} (h : s.i.toNat + x.toNat ≤ 0xFFF) :
    execLdVxMemI x s = .next (s.setRegs (s.readBytes s.i.toNat (x.toNat + 1))) := by
  unfold execLdVxMemI
  rw [State.loadSpan_eq, if_pos (by unfold memSize; omega)]

theorem execLdVxMemI_faults {s : State} {x : Nibble} (h : s.i.toNat + x.toNat > 0xFFF) :
    execLdVxMemI x s =
      .next (s.takeFault .memBounds (s.pc - 2) (encode (.ldVxMemI x)) s.memBoundsInfo) := by
  unfold execLdVxMemI
  rw [State.loadSpan_eq, if_neg (by unfold memSize; omega)]
  rfl

end Memory

section Graphics

/-- A draw whose drawn rows all lie in memory. -/
theorem execDrwVxVyN_draws {s : State} {x y n : Nibble}
    (h : drawnRows n (s.originRow y) = 0 ∨ s.i.toNat + drawnRows n (s.originRow y) ≤ memSize) :
    execDrwVxVyN x y n s =
      let d := Drawing.rows { fb := s.fb, hit := false } (s.originColumn x) (s.originRow y)
        (s.readBytes s.i.toNat (drawnRows n (s.originRow y)))
      .next ({ s with fb := d.fb }.setFlag d.hit) := by
  unfold execDrwVxVyN
  rw [State.loadSpan_eq, if_pos h]

theorem execDrwVxVyN_faults {s : State} {x y n : Nibble}
    (h : ¬ (drawnRows n (s.originRow y) = 0 ∨ s.i.toNat + drawnRows n (s.originRow y) ≤ memSize)) :
    execDrwVxVyN x y n s =
      .next (s.takeFault .memBounds (s.pc - 2) (encode (.drwVxVyN x y n)) s.memBoundsInfo) := by
  unfold execDrwVxVyN
  rw [State.loadSpan_eq, if_neg h]
  rfl

end Graphics

end Sys2Proof.Machine
end

