-- ==== Sys2Proof/Laws/PerInstr.lean ====
section
/-! SUPPORT. The family RoundTrip: the word of a legal instruction decodes to it (30_encoding.md R66). One lemma per
constructor of Instr. -/

namespace Sys2Proof.Laws.RoundTrip

/-- The word of `i` decodes to `i` in every mode in which `i` is legal. -/
def Statement (i : Instr) : Prop := ∀ m, i.wellFormed m = true → decode m (encode i) = .ok i

section Fixed

theorem cls : Statement .cls := by intro m _; cases m <;> decide
theorem ret : Statement .ret := by intro m _; cases m <;> decide

end Fixed

section Nnn

theorem jp (nnn : Addr12) : Statement (.jp nnn) := by
  intro m _
  obtain ⟨h1, h2⟩ := fields_nnn 0x1#4 nnn
  simp [encode, decode, h1, h2]

theorem call (nnn : Addr12) : Statement (.call nnn) := by
  intro m _
  obtain ⟨h1, h2⟩ := fields_nnn 0x2#4 nnn
  simp [encode, decode, h1, h2]

theorem ldINnn (nnn : Addr12) : Statement (.ldINnn nnn) := by
  intro m _
  obtain ⟨h1, h2⟩ := fields_nnn 0xA#4 nnn
  simp [encode, decode, h1, h2]

theorem jpV0Nnn (nnn : Addr12) : Statement (.jpV0Nnn nnn) := by
  intro m h
  obtain ⟨h1, h2⟩ := fields_nnn 0xB#4 nnn
  cases m
  · cases h
  · simp [encode, decode, decodeFamilyB, h1, h2]

end Nnn

section Xkk

theorem seVxKk (x : Nibble) (kk : Byte) : Statement (.seVxKk x kk) := by
  intro m _
  obtain ⟨h1, h2, h3⟩ := fields_xkk 0x3#4 x kk
  simp [encode, decode, h1, h2, h3]

theorem sneVxKk (x : Nibble) (kk : Byte) : Statement (.sneVxKk x kk) := by
  intro m _
  obtain ⟨h1, h2, h3⟩ := fields_xkk 0x4#4 x kk
  simp [encode, decode, h1, h2, h3]

theorem ldVxKk (x : Nibble) (kk : Byte) : Statement (.ldVxKk x kk) := by
  intro m _
  obtain ⟨h1, h2, h3⟩ := fields_xkk 0x6#4 x kk
  simp [encode, decode, h1, h2, h3]

theorem addVxKk (x : Nibble) (kk : Byte) : Statement (.addVxKk x kk) := by
  intro m _
  obtain ⟨h1, h2, h3⟩ := fields_xkk 0x7#4 x kk
  simp [encode, decode, h1, h2, h3]

theorem rndVxKk (x : Nibble) (kk : Byte) : Statement (.rndVxKk x kk) := by
  intro m _
  obtain ⟨h1, h2, h3⟩ := fields_xkk 0xC#4 x kk
  simp [encode, decode, h1, h2, h3]

end Xkk

section Xyn

theorem seVxVy (x y : Nibble) : Statement (.seVxVy x y) := by
  intro m _
  obtain ⟨h1, h2, h3, h4⟩ := fields_xyn 0x5#4 x y 0x0#4
  simp [encode, decode, decodeFamily5, h1, h2, h3, h4]

theorem sneVxVy (x y : Nibble) : Statement (.sneVxVy x y) := by
  intro m _
  obtain ⟨h1, h2, h3, h4⟩ := fields_xyn 0x9#4 x y 0x0#4
  simp [encode, decode, decodeFamily9, h1, h2, h3, h4]

theorem ldVxVy (x y : Nibble) : Statement (.ldVxVy x y) := by
  intro m _
  obtain ⟨h1, h2, h3, h4⟩ := fields_xyn 0x8#4 x y 0x0#4
  simp [encode, decode, decodeFamily8, h1, h2, h3, h4]

theorem orVxVy (x y : Nibble) : Statement (.orVxVy x y) := by
  intro m _
  obtain ⟨h1, h2, h3, h4⟩ := fields_xyn 0x8#4 x y 0x1#4
  simp [encode, decode, decodeFamily8, h1, h2, h3, h4]

theorem andVxVy (x y : Nibble) : Statement (.andVxVy x y) := by
  intro m _
  obtain ⟨h1, h2, h3, h4⟩ := fields_xyn 0x8#4 x y 0x2#4
  simp [encode, decode, decodeFamily8, h1, h2, h3, h4]

theorem xorVxVy (x y : Nibble) : Statement (.xorVxVy x y) := by
  intro m _
  obtain ⟨h1, h2, h3, h4⟩ := fields_xyn 0x8#4 x y 0x3#4
  simp [encode, decode, decodeFamily8, h1, h2, h3, h4]

theorem addVxVy (x y : Nibble) : Statement (.addVxVy x y) := by
  intro m _
  obtain ⟨h1, h2, h3, h4⟩ := fields_xyn 0x8#4 x y 0x4#4
  simp [encode, decode, decodeFamily8, h1, h2, h3, h4]

theorem subVxVy (x y : Nibble) : Statement (.subVxVy x y) := by
  intro m _
  obtain ⟨h1, h2, h3, h4⟩ := fields_xyn 0x8#4 x y 0x5#4
  simp [encode, decode, decodeFamily8, h1, h2, h3, h4]

theorem shrVx (x y : Nibble) : Statement (.shrVx x y) := by
  intro m _
  obtain ⟨h1, h2, h3, h4⟩ := fields_xyn 0x8#4 x y 0x6#4
  simp [encode, decode, decodeFamily8, h1, h2, h3, h4]

theorem subnVxVy (x y : Nibble) : Statement (.subnVxVy x y) := by
  intro m _
  obtain ⟨h1, h2, h3, h4⟩ := fields_xyn 0x8#4 x y 0x7#4
  simp [encode, decode, decodeFamily8, h1, h2, h3, h4]

theorem shlVx (x y : Nibble) : Statement (.shlVx x y) := by
  intro m _
  obtain ⟨h1, h2, h3, h4⟩ := fields_xyn 0x8#4 x y 0xE#4
  simp [encode, decode, decodeFamily8, h1, h2, h3, h4]

theorem drwVxVyN (x y n : Nibble) : Statement (.drwVxVyN x y n) := by
  intro m _
  obtain ⟨h1, h2, h3, h4⟩ := fields_xyn 0xD#4 x y n
  simp [encode, decode, h1, h2, h3, h4]

end Xyn

section FamiliesEAndF

theorem skpVx (x : Nibble) : Statement (.skpVx x) := by
  intro m _
  obtain ⟨h1, h2, h3⟩ := fields_xkk 0xE#4 x 0x9E#8
  simp [encode, decode, decodeFamilyE, h1, h2, h3]

theorem sknpVx (x : Nibble) : Statement (.sknpVx x) := by
  intro m _
  obtain ⟨h1, h2, h3⟩ := fields_xkk 0xE#4 x 0xA1#8
  simp [encode, decode, decodeFamilyE, h1, h2, h3]

theorem ldVxDt (x : Nibble) : Statement (.ldVxDt x) := by
  intro m _
  obtain ⟨h1, h2, h3⟩ := fields_xkk 0xF#4 x 0x07#8
  simp [encode, decode, decodeFamilyF, h1, h2, h3]

theorem ldVxK (x : Nibble) : Statement (.ldVxK x) := by
  intro m _
  obtain ⟨h1, h2, h3⟩ := fields_xkk 0xF#4 x 0x0A#8
  simp [encode, decode, decodeFamilyF, h1, h2, h3]

theorem ldDtVx (x : Nibble) : Statement (.ldDtVx x) := by
  intro m _
  obtain ⟨h1, h2, h3⟩ := fields_xkk 0xF#4 x 0x15#8
  simp [encode, decode, decodeFamilyF, h1, h2, h3]

theorem ldStVx (x : Nibble) : Statement (.ldStVx x) := by
  intro m _
  obtain ⟨h1, h2, h3⟩ := fields_xkk 0xF#4 x 0x18#8
  simp [encode, decode, decodeFamilyF, h1, h2, h3]

theorem addIVx (x : Nibble) : Statement (.addIVx x) := by
  intro m _
  obtain ⟨h1, h2, h3⟩ := fields_xkk 0xF#4 x 0x1E#8
  simp [encode, decode, decodeFamilyF, h1, h2, h3]

theorem ldFVx (x : Nibble) : Statement (.ldFVx x) := by
  intro m _
  obtain ⟨h1, h2, h3⟩ := fields_xkk 0xF#4 x 0x29#8
  simp [encode, decode, decodeFamilyF, h1, h2, h3]

theorem ldBVx (x : Nibble) : Statement (.ldBVx x) := by
  intro m _
  obtain ⟨h1, h2, h3⟩ := fields_xkk 0xF#4 x 0x33#8
  simp [encode, decode, decodeFamilyF, h1, h2, h3]

theorem ldMemIVx (x : Nibble) : Statement (.ldMemIVx x) := by
  intro m _
  obtain ⟨h1, h2, h3⟩ := fields_xkk 0xF#4 x 0x55#8
  simp [encode, decode, decodeFamilyF, h1, h2, h3]

theorem ldVxMemI (x : Nibble) : Statement (.ldVxMemI x) := by
  intro m _
  obtain ⟨h1, h2, h3⟩ := fields_xkk 0xF#4 x 0x65#8
  simp [encode, decode, decodeFamilyF, h1, h2, h3]

end FamiliesEAndF

end Sys2Proof.Laws.RoundTrip
end

