-- ==== Sys2Proof/Laws/Step.lean ====
section
/-! SUPPORT. What one Step can do, said once (30_encoding.md R63, 44_input_timers.md R176, 60_exceptions.md R212),
and that no meaning ends a run without a next state. -/

namespace Sys2Proof.Machine

section Exec

theorem raise_eq (i : Instr) (cause : FaultCause) (info : Word) (s : State) :
    raise i cause info s = .next (s.takeFault cause (s.pc - 2) (encode i) info) := rfl

/-- Every meaning answers a next state: a fault is one (60_exceptions.md R201). -/
theorem exec_answers_next (i : Instr) (s : State) : ∃ t, exec i s = .next t := by
  cases i with
  | ret =>
    simp only [exec, execRet]
    split
    · exact ⟨_, rfl⟩
    · exact ⟨_, rfl⟩
  | call nnn =>
    simp only [exec, execCall]
    split
    · exact ⟨_, rfl⟩
    · exact ⟨_, rfl⟩
  | jpV0Nnn nnn =>
    simp only [exec, execJpV0Nnn]
    split
    · exact ⟨_, rfl⟩
    · exact ⟨_, rfl⟩
  | drwVxVyN x y n =>
    simp only [exec, execDrwVxVyN]
    split
    · exact ⟨_, rfl⟩
    · exact ⟨_, rfl⟩
  | skpVx x =>
    simp only [exec, execSkpVx]
    split
    · exact ⟨_, rfl⟩
    · exact ⟨_, rfl⟩
  | sknpVx x =>
    simp only [exec, execSknpVx]
    split
    · exact ⟨_, rfl⟩
    · exact ⟨_, rfl⟩
  | ldBVx x =>
    simp only [exec, execLdBVx]
    split
    · exact ⟨_, rfl⟩
    · exact ⟨_, rfl⟩
  | ldMemIVx x =>
    simp only [exec, execLdMemIVx]
    split
    · exact ⟨_, rfl⟩
    · exact ⟨_, rfl⟩
  | ldVxMemI x =>
    simp only [exec, execLdVxMemI]
    split
    · exact ⟨_, rfl⟩
    · exact ⟨_, rfl⟩
  | _ => exact ⟨_, rfl⟩

end Exec

section Step

/-- A Step whose fetch would leave the space (30_encoding.md R64). -/
theorem step_of_no_fetch {s : State} (hs : s.status = .run) (hf : s.fetchWord = none) :
    step s = .next (s.takeFault .fetchBounds s.pc 0 s.pc).consumeInput := by
  simp only [step, stepEffect, hs, fetchAndExecute, hf, onNext]

/-- A Step on an unknown word (30_encoding.md R70). -/
theorem step_of_unknown {s : State} {w : Word} {e : DecodeError} (hs : s.status = .run)
    (hf : s.fetchWord = some w) (hd : decode s.cfg.bnnnMode w = .error e) :
    step s = .next (s.advancePc.takeFault .unknownOpcode s.pc w 0).consumeInput := by
  simp only [step, stepEffect, hs, fetchAndExecute, hf, hd, onNext]

/-- A Step on a decoded instruction (30_encoding.md R63). -/
theorem step_of_decoded {s : State} {w : Word} {i : Instr} (hs : s.status = .run)
    (hf : s.fetchWord = some w) (hd : decode s.cfg.bnnnMode w = .ok i) :
    step s = onNext State.consumeInput (exec i s.advancePc) := by
  simp only [step, stepEffect, hs, fetchAndExecute, hf, hd]

/-- A Step in WAIT(x) (44_input_timers.md R176). -/
theorem step_of_wait {s : State} {x : Nibble} (hs : s.status = .wait x) :
    step s = .next (s.resumeWait x).consumeInput := by
  simp only [step, stepEffect, hs, onNext]

/-- A Step in CANCELLED (60_exceptions.md R212). -/
theorem step_of_cancelled {s : State} (hs : s.status = .cancelled) : step s = .next s.consumeInput := by
  simp only [step, stepEffect, hs, onNext]

/-- A Step in FAULTED (60_exceptions.md R212). -/
theorem step_of_faulted {s : State} {c : FaultCause} {a w n : Word} (hs : s.status = .faulted c a w n) :
    step s = .next s.consumeInput := by
  simp only [step, stepEffect, hs, onNext]

/-- What one Step can do. -/
theorem step_cases {s t : State} (h : step s = .next t) :
    (s.status = .run ∧ s.fetchWord = none ∧
      t = (s.takeFault .fetchBounds s.pc 0 s.pc).consumeInput) ∨
    (∃ w e, s.status = .run ∧ s.fetchWord = some w ∧ decode s.cfg.bnnnMode w = .error e ∧
      t = (s.advancePc.takeFault .unknownOpcode s.pc w 0).consumeInput) ∨
    (∃ w i u, s.status = .run ∧ s.fetchWord = some w ∧ decode s.cfg.bnnnMode w = .ok i ∧
      exec i s.advancePc = .next u ∧ t = u.consumeInput) ∨
    (∃ x, s.status = .wait x ∧ t = (s.resumeWait x).consumeInput) ∨
    (s.status = .cancelled ∧ t = s.consumeInput) ∨
    (∃ c a w n, s.status = .faulted c a w n ∧ t = s.consumeInput) := by
  unfold step stepEffect at h
  cases hs : s.status with
  | run =>
    simp only [hs, fetchAndExecute] at h
    cases hf : s.fetchWord with
    | none =>
      simp only [hf, onNext] at h
      exact .inl ⟨rfl, rfl, (Host.Outcome.next.inj h).symm⟩
    | some w =>
      cases hd : decode s.cfg.bnnnMode w with
      | error e =>
        simp only [hf, hd, onNext] at h
        exact .inr (.inl ⟨w, e, rfl, rfl, hd, (Host.Outcome.next.inj h).symm⟩)
      | ok i =>
        obtain ⟨u, hu⟩ := exec_answers_next i s.advancePc
        simp only [hf, hd, hu, onNext] at h
        exact .inr (.inr (.inl ⟨w, i, u, rfl, rfl, hd, hu, (Host.Outcome.next.inj h).symm⟩))
  | wait x =>
    simp only [hs, onNext] at h
    exact .inr (.inr (.inr (.inl ⟨x, rfl, (Host.Outcome.next.inj h).symm⟩)))
  | cancelled =>
    simp only [hs, onNext] at h
    exact .inr (.inr (.inr (.inr (.inl ⟨rfl, (Host.Outcome.next.inj h).symm⟩))))
  | faulted c a w n =>
    simp only [hs, onNext] at h
    exact .inr (.inr (.inr (.inr (.inr ⟨c, a, w, n, rfl, (Host.Outcome.next.inj h).symm⟩))))

end Step

end Sys2Proof.Machine
end

