-- ==== Sys2Proof/Tests/Slice0.lean ====
section
/-! SUPPORT. Tests of the model: the well-formedness smoke, a word written out bit by bit for every constructor, one
small Step per instruction from spec/95_test_vectors.md (its vector ids in the comments), and for every statement with
hypotheses a concrete state and operands that meet them. -/

namespace Sys2Proof.Tests

open Sys2Proof.Machine

section Helpers

/-- Parameters for tests: FONT_BASE 0x050, as vector M5 has it. -/
def cfg (m : BnnnMode) : Config := ⟨0x50, standardFont, m⟩

/-- The reset state under the test parameters. -/
def s0 : State := State.resetWith (cfg .unknown)

/-- `s0` with some registers set. -/
def withRegs (l : List (Nibble × Byte)) : State := l.foldl (fun s p => s.setReg p.1 p.2) s0

/-- The state a result holds, `s` if it holds none. -/
def nextOr (s : State) : Result → State
  | .next t => t
  | .fault _ => s
  | .refused _ => s

/-- One Step of `s` with the word `w` at its `PC`. -/
def after (w : Word) (s : State) : State := nextOr s (step (s.placeWord w))

/-- `s0` about to execute `w`. -/
def about (w : Word) : State := s0.placeWord w

/-- `s0` in a given status. -/
def inStatus (st : Status) : State := { s0 with status := st }

end Helpers

section WellFormedSmoke

/-- The one check on instructions (R66): Bnnn where BNNN_MODE does not admit it. -/
theorem test_wellFormed_refuses_bnnn :
    (Instr.jpV0Nnn 0x300#12).wellFormed .unknown = false ∧ (Instr.jpV0Nnn 0x300#12).wellFormed .jumpV0 = true := by
  decide

/-- R5: a font that does not fit below 0x200, and one of the wrong length. -/
theorem test_config_refuses_font :
    Config.make 433 (List.replicate 80 0) .unknown = none ∧ Config.make 432 (List.replicate 79 0) .unknown = none ∧
    (Config.make 432 (List.replicate 80 0) .unknown).isSome = true := by
  decide

end WellFormedSmoke

section DecodedWords

theorem test_decode_control_flow :
    decode .unknown 0b0000000011101110#16 = .ok .ret ∧
    decode .unknown 0b0001101010111100#16 = .ok (.jp 0xABC#12) ∧
    decode .unknown 0b0010000000000001#16 = .ok (.call 0x001#12) ∧
    decode .unknown 0b0011101000000101#16 = .ok (.seVxKk 0xA#4 0x05#8) ∧
    decode .unknown 0b0100101100000110#16 = .ok (.sneVxKk 0xB#4 0x06#8) ∧
    decode .unknown 0b0101000100100000#16 = .ok (.seVxVy 0x1#4 0x2#4) ∧
    decode .unknown 0b1001001100010000#16 = .ok (.sneVxVy 0x3#4 0x1#4) ∧
    decode .jumpV0 0b1011001100000000#16 = .ok (.jpV0Nnn 0x300#12) := by
  decide

theorem test_decode_load_and_logic :
    decode .unknown 0b0110101000000101#16 = .ok (.ldVxKk 0xA#4 0x05#8) ∧
    decode .unknown 0b0111101000000011#16 = .ok (.addVxKk 0xA#4 0x03#8) ∧
    decode .unknown 0b1000000100100000#16 = .ok (.ldVxVy 0x1#4 0x2#4) ∧
    decode .unknown 0b1000000100100001#16 = .ok (.orVxVy 0x1#4 0x2#4) ∧
    decode .unknown 0b1000000100100010#16 = .ok (.andVxVy 0x1#4 0x2#4) ∧
    decode .unknown 0b1000000100100011#16 = .ok (.xorVxVy 0x1#4 0x2#4) := by
  decide

theorem test_decode_flag_arithmetic :
    decode .unknown 0b1000000100100100#16 = .ok (.addVxVy 0x1#4 0x2#4) ∧
    decode .unknown 0b1000000100100101#16 = .ok (.subVxVy 0x1#4 0x2#4) ∧
    decode .unknown 0b1000000100100110#16 = .ok (.shrVx 0x1#4 0x2#4) ∧
    decode .unknown 0b1000000100100111#16 = .ok (.subnVxVy 0x1#4 0x2#4) ∧
    decode .unknown 0b1000000100101110#16 = .ok (.shlVx 0x1#4 0x2#4) ∧
    decode .unknown 0b1100001100001111#16 = .ok (.rndVxKk 0x3#4 0x0F#8) := by
  decide

theorem test_decode_index_and_memory :
    decode .unknown 0b1010001011110000#16 = .ok (.ldINnn 0x2F0#12) ∧
    decode .unknown 0b1111001100011110#16 = .ok (.addIVx 0x3#4) ∧
    decode .unknown 0b1111001000101001#16 = .ok (.ldFVx 0x2#4) ∧
    decode .unknown 0b1111010100110011#16 = .ok (.ldBVx 0x5#4) ∧
    decode .unknown 0b1111001001010101#16 = .ok (.ldMemIVx 0x2#4) ∧
    decode .unknown 0b1111001001100101#16 = .ok (.ldVxMemI 0x2#4) := by
  decide

theorem test_decode_graphics_and_input :
    decode .unknown 0b0000000011100000#16 = .ok .cls ∧
    decode .unknown 0b1101000000010010#16 = .ok (.drwVxVyN 0x0#4 0x1#4 0x2#4) ∧
    decode .unknown 0b1110000110011110#16 = .ok (.skpVx 0x1#4) ∧
    decode .unknown 0b1110000110100001#16 = .ok (.sknpVx 0x1#4) ∧
    decode .unknown 0b1111010000000111#16 = .ok (.ldVxDt 0x4#4) ∧
    decode .unknown 0b1111001100001010#16 = .ok (.ldVxK 0x3#4) ∧
    decode .unknown 0b1111010000010101#16 = .ok (.ldDtVx 0x4#4) ∧
    decode .unknown 0b1111010000011000#16 = .ok (.ldStVx 0x4#4) := by
  decide

/-- E3 to E8 and B15: words the table does not have, each rejected under the name of its part of R70's set. -/
theorem test_decode_rejects_by_name :
    decode .unknown 0x0000#16 = .error (.unknownFamily0 0x0000#16) ∧
    decode .unknown 0x0123#16 = .error (.unknownFamily0 0x0123#16) ∧
    decode .unknown 0x5121#16 = .error (.unknownFamily5 0x5121#16) ∧
    decode .unknown 0x8128#16 = .error (.unknownFamily8 0x8128#16) ∧
    decode .unknown 0x9121#16 = .error (.unknownFamily9 0x9121#16) ∧
    decode .unknown 0xB300#16 = .error (.bnnnNotAdmitted 0xB300#16) ∧
    decode .unknown 0xE1A2#16 = .error (.unknownFamilyE 0xE1A2#16) ∧
    decode .unknown 0xF1FF#16 = .error (.unknownFamilyF 0xF1FF#16) ∧
    decodeBytes .unknown [0x12] = .error .truncated := by
  decide

/-- The table's row 0 and row 33 through the host's numbering. -/
theorem test_table_numbers :
    decodeTableWord 16 0x00E0 = some .cls ∧ decodeTableWord 16 0xF265 = some (.ldVxMemI 0x2#4) ∧
    decodeTableWord 16 0x0000 = none := by
  decide

end DecodedWords

section ControlFlow

/-- B1 -/
theorem test_jp : (after 0x1234 s0).pc = 0x234 := by decide
/-- B3 -/
theorem test_call :
    let t := after 0x2300 { s0 with sp := 15 }
    t.stack[15] = 0x202 ∧ t.sp = 16 ∧ t.pc = 0x300 := by decide
/-- B4 -/
theorem test_call_overflow :
    let t := after 0x2300 { s0 with sp := 16 }
    t.status = .faulted .stackOverflow 0x200 0x2300 0 ∧ t.sp = 16 ∧ t.pc = 0x202 := by decide
/-- B5 -/
theorem test_ret :
    let t := after 0x00EE { s0 with sp := 2, stack := (s0.stack.set 0 0x206).set 1 0x40A }
    t.sp = 1 ∧ t.pc = 0x40A ∧ t.stack[1] = 0x40A := by decide
/-- B6 -/
theorem test_ret_underflow :
    let t := after 0x00EE s0
    t.status = .faulted .stackUnderflow 0x200 0x00EE 0 ∧ t.pc = 0x202 := by decide
/-- B7, B8 -/
theorem test_seVxKk :
    (after 0x3A05 (withRegs [(0xA, 5)])).pc = 0x204 ∧ (after 0x3A05 (withRegs [(0xA, 6)])).pc = 0x202 := by decide
/-- B9, and the complement of B7 (R85) -/
theorem test_sneVxKk :
    (after 0x4A05 (withRegs [(0xA, 6)])).pc = 0x204 ∧ (after 0x4A05 (withRegs [(0xA, 5)])).pc = 0x202 := by decide
/-- B11, and R86 with unequal registers -/
theorem test_seVxVy : (after 0x5110 s0).pc = 0x204 ∧ (after 0x5120 (withRegs [(1, 1)])).pc = 0x202 := by decide
/-- B12, B13 -/
theorem test_sneVxVy :
    (after 0x9110 s0).pc = 0x202 ∧ (after 0x9120 (withRegs [(1, 1), (2, 2)])).pc = 0x204 := by decide
/-- B14 -/
theorem test_skip_past_the_end : (after 0x3000 { s0 with pc := 0xFFE }).pc = 0x1002 := by decide
/-- B16 -/
theorem test_jpV0Nnn : (after 0xB300 ({ s0 with cfg := cfg .jumpV0 }.setReg 0 0x10)).pc = 0x310 := by decide
/-- B15 -/
theorem test_jpV0Nnn_unknown : (after 0xB300 s0).status = .faulted .unknownOpcode 0x200 0xB300 0 := by decide
/-- E1, E2 -/
theorem test_fetch_at_the_end :
    (after 0x6001 { s0 with pc := 0xFFE }).pc = 0x1000 ∧
    (nextOr s0 (step { s0 with pc := 0xFFF })).status = .faulted .fetchBounds 0xFFF 0 0xFFF ∧
    (nextOr s0 (step { s0 with pc := 0xFFF })).pc = 0xFFF := by decide

end ControlFlow

section Arithmetic

/-- A1 (the source's own example) -/
theorem test_ldVxKk : (after 0x6A05 s0).reg 0xA = 5 ∧ (after 0x6A05 s0).pc = 0x202 := by decide
/-- A3 -/
theorem test_addVxKk :
    let t := after 0x7101 (withRegs [(1, 0xFF), (0xF, 1)])
    t.reg 1 = 0 ∧ t.reg 0xF = 1 := by decide
/-- A4 -/
theorem test_addVxKk_vf : (after 0x7F01 (withRegs [(0xF, 0xFF)])).reg 0xF = 0 := by decide
/-- A5 -/
theorem test_ldVxVy : (after 0x8120 (withRegs [(2, 0x7F)])).reg 1 = 0x7F := by decide
/-- A21 -/
theorem test_orVxVy :
    let t := after 0x8121 (withRegs [(1, 0x0F), (2, 0xF0), (0xF, 1)])
    t.reg 1 = 0xFF ∧ t.reg 0xF = 1 := by decide
/-- A22 -/
theorem test_andVxVy : (after 0x8122 (withRegs [(1, 0xF0), (2, 0x3C)])).reg 1 = 0x30 := by decide
/-- A23 -/
theorem test_xorVxVy : (after 0x8113 (withRegs [(1, 0x5A)])).reg 1 = 0 := by decide
/-- A6, A7 -/
theorem test_addVxVy :
    let t := after 0x8124 (withRegs [(1, 0xFF), (2, 1)])
    let u := after 0x8124 (withRegs [(1, 0x80), (2, 0x7F)])
    t.reg 1 = 0 ∧ t.reg 0xF = 1 ∧ u.reg 1 = 0xFF ∧ u.reg 0xF = 0 := by decide
/-- A8, A9 -/
theorem test_addVxVy_vf :
    (after 0x8F14 (withRegs [(0xF, 0xFF), (1, 2)])).reg 0xF = 1 ∧
    (after 0x81F4 (withRegs [(0xF, 5), (1, 3)])).reg 1 = 8 := by decide
/-- A10, A11 -/
theorem test_subVxVy :
    let t := after 0x8125 (withRegs [(1, 0), (2, 1)])
    let u := after 0x8125 (withRegs [(1, 0x42), (2, 0x42)])
    t.reg 1 = 0xFF ∧ t.reg 0xF = 0 ∧ u.reg 1 = 0 ∧ u.reg 0xF = 1 := by decide
/-- A12 -/
theorem test_subVxVy_vf : (after 0x8F15 (withRegs [(0xF, 0x10), (1, 0x20)])).reg 0xF = 0 := by decide
/-- A16, A17 -/
theorem test_shrVx :
    let t := after 0x8106 (withRegs [(1, 5)])
    t.reg 1 = 2 ∧ t.reg 0xF = 1 ∧ (after 0x8F06 (withRegs [(0xF, 3)])).reg 0xF = 1 := by decide
/-- A13, A14 -/
theorem test_subnVxVy :
    let t := after 0x8127 (withRegs [(1, 3), (2, 0xA)])
    let u := after 0x8127 (withRegs [(1, 1), (2, 0)])
    t.reg 1 = 7 ∧ t.reg 0xF = 1 ∧ u.reg 1 = 0xFF ∧ u.reg 0xF = 0 := by decide
/-- A19, A20 -/
theorem test_shlVx :
    let t := after 0x812E (withRegs [(1, 0x40), (2, 0xFF)])
    t.reg 1 = 0x80 ∧ t.reg 0xF = 0 ∧ t.reg 2 = 0xFF ∧ (after 0x8F0E (withRegs [(0xF, 0x7F)])).reg 0xF = 0 := by decide
/-- R1 -/
theorem test_rndVxKk : (after 0xC30F (s0.announce ⟨.none, 0xA7⟩)).reg 3 = 7 := by decide

end Arithmetic

section IndexAndMemory

/-- M1 -/
theorem test_ldINnn : (after 0xA2F0 s0).i = 0x2F0 := by decide
/-- M3, M4 -/
theorem test_addIVx :
    (after 0xF11E { withRegs [(1, 1)] with i := 0xFFFF }).i = 0 ∧
    (after 0xF11E { withRegs [(1, 0x20)] with i := 0xFF0 }).i = 0x1010 := by decide
/-- M5 -/
theorem test_ldFVx : (after 0xF129 (withRegs [(1, 0x1A)])).i = 0x82 := by decide
/-- M6, M9 -/
theorem test_ldBVx :
    (after 0xF533 { withRegs [(5, 0x9C)] with i := 0x300 }).readBytes 0x300 3 = [1, 5, 6] ∧
    (after 0xF133 { withRegs [(1, 0x7B)] with i := 0xFFD }).readBytes 0xFFD 3 = [1, 2, 3] := by decide
/-- M10 -/
theorem test_ldBVx_bounds :
    let t := after 0xF133 { withRegs [(1, 0x7B)] with i := 0xFFE }
    t.status = .faulted .memBounds 0x200 0xF133 0x1000 ∧ t.readBytes 0xFFE 2 = [0, 0] := by decide
/-- M11 -/
theorem test_ldMemIVx :
    let t := after 0xF255 { withRegs [(0, 0x11), (1, 0x22), (2, 0x33), (3, 0x44)] with i := 0x400 }
    t.readBytes 0x400 4 = [0x11, 0x22, 0x33, 0] ∧ t.i = 0x400 := by decide
/-- M13 -/
theorem test_ldMemIVx_bounds :
    (after 0xFF55 { s0 with i := 0xFF1 }).status = .faulted .memBounds 0x200 0xFF55 0x1000 := by decide
/-- M14, with V1 kept -/
theorem test_ldVxMemI :
    let t := after 0xF065 ({ withRegs [(1, 9)] with i := 0x300 }.writeByte 0x300 0xAB)
    t.reg 0 = 0xAB ∧ t.reg 1 = 9 := by decide
/-- M16 -/
theorem test_ldVxMemI_bounds :
    (after 0xF165 { s0 with i := 0x2000 }).status = .faulted .memBounds 0x200 0xF165 0x2000 := by decide
/-- R47: an image placed at 0x200, and one that runs over the end loses the bytes that do not fit -/
theorem test_load :
    (s0.load [0x6A, 0x05]).readBytes 0x200 2 = [0x6A, 0x05] ∧
    (s0.loadAt 0xFFF [0xAA, 0xBB]).mem = [(0xFFF, 0xAA)] := by decide
/-- 10_state.md R33: writing the reset contents back leaves nothing listed, so equal memories are equal data -/
theorem test_memory_canonical :
    ((s0.writeByte 0x50 1).writeByte 0x50 0xF0).mem = [] ∧ (s0.writeByte 0x300 0).mem = [] := by decide

end IndexAndMemory

section Graphics

/-- `s0` with `I = 0x300`, a sprite there, and registers. -/
def sprite (bs : List Byte) (l : List (Nibble × Byte)) : State := { withRegs l with i := 0x300 }.writeBytes 0x300 bs

/-- The columns of row `y` that are on. -/
def onInRow (s : State) (y : Nat) : List Nat := (List.range 64).filter (fun x => pixel s.fb y x)

/-- K1 -/
theorem test_cls :
    let t := after 0x00E0 { withRegs [(0xF, 1)] with fb := setPixel s0.fb 31 63 true }
    onInRow t 31 = [] ∧ t.reg 0xF = 1 := by decide
/-- G3 -/
theorem test_drw_wraps_columns :
    let t := after 0xD011 (sprite [0xFF] [(0, 60)])
    onInRow t 0 = [0, 1, 2, 3, 60, 61, 62, 63] ∧ t.reg 0xF = 0 := by decide
/-- G2, G8 -/
theorem test_drw_collides_and_clips :
    let s := sprite [0xF0] []
    let t := after 0xD011 { s with fb := setPixel s.fb 0 2 true }
    let u := after 0xD013 ({ withRegs [(1, 31)] with i := 0xFFF }.writeByte 0xFFF 0x80)
    onInRow t 0 = [0, 1, 3] ∧ t.reg 0xF = 1 ∧ onInRow u 31 = [0] ∧ onInRow u 0 = [] ∧ u.status = .run := by decide

end Graphics

section InputAndTimers

/-- I1, I2 -/
theorem test_skpVx :
    (after 0xE19E ((withRegs [(1, 5)]).setKeys 0x0020)).pc = 0x204 ∧ (after 0xE19E (withRegs [(1, 5)])).pc = 0x202 := by
  decide
/-- I3, I4 -/
theorem test_sknpVx :
    (after 0xE1A1 (withRegs [(1, 5)])).pc = 0x204 ∧
    (after 0xE1A1 (withRegs [(1, 0x10)])).status = .faulted .keyIndex 0x200 0xE1A1 0x10 := by decide
/-- I5 -/
theorem test_ldVxK_press :
    let t := after 0xF30A (s0.announce ⟨.press 0xB, 0⟩)
    t.reg 3 = 0xB ∧ t.status = .run ∧ t.pc = 0x202 := by decide
/-- I6, I9 -/
theorem test_ldVxK_waits :
    let t := after 0xF30A (s0.announce ⟨.none, 0⟩)
    let u := nextOr t (t.stepWith ⟨.press 2, 0⟩)
    t.status = .wait 3 ∧ t.pc = 0x202 ∧ u.reg 3 = 2 ∧ u.status = .run ∧ u.pc = 0x202 := by decide
/-- D1 -/
theorem test_ldVxDt : (after 0xF407 { s0 with dt := 0x3C }).reg 4 = 0x3C := by decide
/-- D2 -/
theorem test_ldDtVx : (after 0xF415 (withRegs [(4, 0x3C)])).dt = 0x3C := by decide
/-- D3 -/
theorem test_ldStVx : (after 0xF418 (withRegs [(4, 5)])).st = 5 := by decide
/-- T1, T3 -/
theorem test_tick : ({ s0 with dt := 2 }.tick).dt = 1 ∧ ({ s0 with dt := 2 }.tick).st = 0 ∧ (s0.tick).dt = 0 := by decide
/-- H1 -/
theorem test_setKeys :
    (s0.setKeys 0x8001).keys[0] = true ∧ (s0.setKeys 0x8001).keys[15] = true ∧ (s0.setKeys 0x8001).keys[1] = false := by
  decide
/-- Z1 -/
theorem test_reset_leaves_a_fault :
    (({ s0 with status := .faulted .unknownOpcode 0x200 0x5121 0 }).hostReset).status = .run := by decide

end InputAndTimers

section Witnesses

/-! Each theorem names the statement whose hypotheses its state and operands meet. -/

/-- `s0` fetches what it is about to execute. -/
theorem fetches_about (w : Word) (i : Instr) (hf : (about w).fetchWord = some w) (hd : decode .unknown w = .ok i) :
    Fetches (about w) i := ⟨rfl, w, hf, hd⟩

/-- DecodeInvertsEncode, DecodingFollowsMaskAndMatch: Bnnn, the one instruction with a condition, and another -/
theorem witness_wellFormed :
    (Instr.jpV0Nnn 0xFFF#12).wellFormed .jumpV0 = true ∧ (Instr.ldVxMemI 0xF#4).wellFormed .unknown = true := by decide

/-- EncodeInvertsDecode -/
theorem witness_decodes : decode .unknown 0xFF65#16 = .ok (.ldVxMemI 0xF#4) := by decide

/-- StepFetchesDecodesAndExecutes: the last fetch that fits, the first that does not, a word that decodes and one that
does not -/
theorem witness_step :
    s0.status = .run ∧ (0xFFE#16).toNat + 1 ≤ 0xFFF ∧ (0xFFF#16).toNat + 1 > 0xFFF ∧
    decode (about 0x6A05).cfg.bnnnMode ((about 0x6A05).readByte 0x200 ++ (about 0x6A05).readByte 0x201) =
      .ok (.ldVxKk 0xA#4 0x05#8) ∧
    decode s0.cfg.bnnnMode (s0.readByte 0x200 ++ s0.readByte 0x201) = .error (.unknownFamily0 0) := by decide

/-- IllegalWordFaultsTheProgram -/
theorem witness_illegal_word :
    (about 0x5121).status = .run ∧ (about 0x5121).fetchWord = some 0x5121#16 ∧
    illegalWord (about 0x5121).cfg.bnnnMode 0x5121#16 := by
  refine ⟨by decide, by decide, .inr (.inl (by decide))⟩

/-- HaltedStepChangesNothing, HaltedRunsStayHalted, OnlyResetLeavesAHaltedStatus -/
theorem witness_halted :
    (inStatus .cancelled).status.halted = true ∧
    (inStatus (.faulted .fetchBounds 0xFFF 0 0xFFF)).status.halted = true ∧
    HostOp.reset.perform (inStatus .cancelled) = .next (inStatus .cancelled).hostReset :=
  ⟨by decide, by decide, rfl⟩

/-- WaitingStepFollowsItsEvent -/
theorem witness_waiting : (inStatus (.wait 0xF)).status = .wait 0xF := by decide

/-- SkipsPassOverOneWord: a condition that holds, one that fails, and a key skip on key 15 -/
theorem witness_skips :
    Fetches (about 0x3A00) (.seVxKk 0xA 0x00) ∧ skipCondition (.seVxKk 0xA 0x00) (about 0x3A00).advancePc = some true ∧
    Fetches (about 0x4A00) (.sneVxKk 0xA 0x00) ∧ skipCondition (.sneVxKk 0xA 0x00) (about 0x4A00).advancePc = some false ∧
    skipCondition (.sknpVx 1) ((withRegs [(1, 15)]).advancePc) = some true :=
  ⟨fetches_about _ _ (by decide) (by decide), by decide, fetches_about _ _ (by decide) (by decide), by decide,
    by decide⟩

/-- A state that fetches `i` fetches nothing else. -/
theorem not_fetches {s : State} {i j : Instr} (h : Fetches s i) (hne : i ≠ j) : ¬ Fetches s j := by
  rintro ⟨_, w', hf', hd'⟩
  obtain ⟨_, w, hf, hd⟩ := h
  rw [hf] at hf'
  cases hf'
  rw [hd] at hd'
  exact hne (Except.ok.inj hd')

/-- InputsMatterOnlyWhereRead: CLS reads neither input -/
theorem witness_inputs :
    (∀ x, (about 0x00E0).status ≠ .wait x) ∧ (∀ x, ¬ Fetches (about 0x00E0) (.ldVxK x)) ∧
    (∀ x kk, ¬ Fetches (about 0x00E0) (.rndVxKk x kk)) := by
  have h : Fetches (about 0x00E0) .cls := fetches_about _ _ (by decide) (by decide)
  have hs : (about 0x00E0).status = .run := rfl
  exact ⟨fun x => (by rw [hs]; intro e; cases e), fun x => not_fetches h (by intro e; cases e),
    fun x kk => not_fetches h (by intro e; cases e)⟩

/-- FaultsArePreciseAndStay: a fault of the fetch and a fault of an instruction -/
theorem witness_faults :
    step { s0 with pc := 0xFFF } = .next ({ s0 with pc := 0xFFF }.takeFault .fetchBounds 0xFFF 0 0xFFF).consumeInput ∧
    step (about 0x00EE) =
      .next ({ about 0x00EE with pc := 0x202 }.takeFault .stackUnderflow 0x200 0x00EE 0).consumeInput := by
  exact ⟨rfl, rfl⟩

/-- FaultsAreThoseOfTheTable: every cause comes up -/
theorem witness_table :
    s0.status = .run ∧ stepFaultOf s0 = some (.unknownOpcode, 0) ∧
    stepFaultOf { s0 with pc := 0xFFF } = some (.fetchBounds, 0xFFF) ∧
    stepFaultOf { about 0xF133 with i := 0xFFE } = some (.memBounds, 0x1000) ∧
    stepFaultOf { about 0xF133 with i := 0xFFD } = none ∧
    stepFaultOf { about 0x2300 with sp := 16 } = some (.stackOverflow, 0) ∧
    stepFaultOf { about 0x2300 with sp := 15 } = none ∧
    stepFaultOf (about 0x00EE) = some (.stackUnderflow, 0) ∧
    stepFaultOf ((about 0xE19E).setReg 1 16) = some (.keyIndex, 16) ∧
    stepFaultOf ((about 0xE19E).setReg 1 15) = none := by decide

/-- StepKeepsTheBoundsAndMemoryForm, EveryScheduleCompletesWithinBounds: a state of the invariant away from reset, at
the bounds -/
theorem witness_invariant :
    State.Inv { s0.writeByte 0xFFF 1 with pc := 0x1002, sp := 16, stack := Vector.replicate 16 0x1000 } :=
  ⟨by decide, by decide, by decide⟩

/-- InstructionsWriteOnlyTheirParts, OnlyFlagWritersOrDestinationsChangeVF -/
theorem witness_frame :
    exec (.ldVxKk 0xE 5) s0 = .next (s0.setReg 0xE 5) ∧ writesFlag (.ldVxKk 0xE 5) = false ∧
    destination (.ldVxKk 0xE 5) ≠ some vf := by
  exact ⟨rfl, rfl, by decide⟩

/-- TimersAndKeysChangeOnlyWhereNamed: each change happens -/
theorem witness_timers :
    (nextOr s0 (HostOp.tick.perform { s0 with dt := 1, st := 1 })).dt ≠ (1 : Byte) ∧
    (nextOr s0 (HostOp.tick.perform { s0 with dt := 1, st := 1 })).st ≠ (1 : Byte) ∧
    (nextOr s0 ((about 0xF115).setReg 1 7 |>.stepWith ⟨.none, 0⟩)).dt ≠ s0.dt ∧
    (nextOr s0 ((HostOp.setKeys 1).perform s0)).keys ≠ s0.keys := by decide

/-- WrittenByteIsReadBack, LoadStoresTheImageThatFits: memory in canonical form, the last address, the last image
byte that fits and the first that does not -/
theorem witness_memory :
    (s0.writeByte 0xFFF 1).mem.wf s0.cfg = true ∧ 0xFFF ≤ 0xFFF ∧
    (∃ image : List Byte, 3584 < image.length ∧ 0x200 + 3583 ≤ 0xFFF ∧ ¬ 0x200 + 3584 ≤ 0xFFF) :=
  ⟨by decide, by decide, List.replicate 3585 0, by rw [List.length_replicate]; decide, by decide, by decide⟩

/-- StoredBytesAreFetched -/
theorem witness_stored :
    1 ≤ (0x1#4).toNat ∧ ({ s0 with i := 0xFFE }.i.toNat + (0x1#4).toNat ≤ 0xFFF) ∧
    (nextOr s0 (exec (.ldMemIVx 1) { withRegs [(0, 0x12), (1, 0x34)] with i := 0xFFE })).readBytes 0xFFE 2 =
      [0x12, 0x34] ∧
    { s0 with i := 0xFFD }.i.toNat + 2 ≤ 0xFFF ∧ s0.mem.wf s0.cfg = true := by decide

/-- ReturnPopsIntoPC, CallPushesAndReturnUndoes: the stack pointer at each end of each range -/
theorem witness_stack :
    0 < ({ s0 with sp := 1 }.sp).val ∧ 0 < ({ s0 with sp := 16 }.sp).val ∧ s0.sp.val = 0 ∧
    ({ s0 with sp := 15 }.sp).val < 16 ∧ ({ s0 with sp := 16 }.sp).val = 16 ∧
    ({ s0 with sp := 16, pc := 0x300 }).stack = (nextOr s0 (exec (.call 0x300) { s0 with sp := 15, pc := 0 })).stack := by
  decide

/-- JumpWithOffsetFollowsItsMode -/
theorem witness_bnnn :
    ({ s0 with cfg := cfg .jumpV0 }).cfg.bnnnMode = .jumpV0 ∧ (about 0xBFFF).cfg.bnnnMode = .unknown ∧
    (about 0xBFFF).status = .run ∧ (about 0xBFFF).fetchWord = some (0xB#4 ++ 0xFFF#12) := by decide

/-- AddWritesSumThenCarry, SubtractionsWriteDifferenceThenNoBorrow, ShiftsWriteResultThenBitShiftedOut,
DrawingTwiceRestoresTheScreen: a destination that is not VF -/
theorem witness_not_vf : (0xE#4 : Nibble) ≠ vf := by decide

/-- RandomByteIsMasked: a Step that executes RND, and one that does not -/
theorem witness_random :
    Fetches (about 0xCF0F) (.rndVxKk 0xF 0x0F) ∧ ∀ x kk, ¬ Fetches (about 0x00E0) (.rndVxKk x kk) :=
  ⟨fetches_about _ _ (by decide) (by decide), witness_inputs.2.2⟩

/-- DecimalDigitsAreStored, BulkStoreWritesRegistersInOrder, BulkLoadReadsRegistersInOrder: `I` on each side of the
bound, for the widest transfer and the narrowest -/
theorem witness_index :
    s0.mem.wf s0.cfg = true ∧
    ({ s0 with i := 0xFFD }).i.toNat + 2 ≤ 0xFFF ∧ ({ s0 with i := 0xFFE }).i.toNat + 2 > 0xFFF ∧
    ({ s0 with i := 0xFF0 }).i.toNat + (0xF#4).toNat ≤ 0xFFF ∧ ({ s0 with i := 0xFF1 }).i.toNat + (0xF#4).toNat > 0xFFF ∧
    ({ s0 with i := 0xFFF }).i.toNat + (0x0#4).toNat ≤ 0xFFF ∧
    ({ s0 with i := 0x1000 }).i.toNat + (0x0#4).toNat > 0xFFF := by decide

/-- DrawFlipsTheSpritePixels: no row drawn with `I` out of range, the last row that fits, the first that does not, the
clipped one that fits; a sprite that collides and one that does not -/
theorem witness_draw :
    min (0x0#4).toNat (32 - (s0.reg 0).toNat % 32) = 0 ∧
    ({ s0 with i := 0xFFE }).i.toNat + min (0x2#4).toNat (32 - (s0.reg 0).toNat % 32) - 1 ≤ 0xFFF ∧
    ({ s0 with i := 0xFFE }).i.toNat + min (0x3#4).toNat (32 - (s0.reg 0).toNat % 32) - 1 > 0xFFF ∧
    ({ s0 with i := 0xFFF }).i.toNat + min (0xF#4).toNat (32 - ((withRegs [(1, 31)]).reg 1).toNat % 32) - 1 ≤ 0xFFF ∧
    spriteCollides { sprite [0x80] [] with fb := setPixel s0.fb 0 0 true } 0 1 1 ∧
    ¬ spriteCollides (sprite [0x80] []) 0 1 1 := by
  refine ⟨by decide, by decide, by decide, by decide, ⟨0, 0, by decide⟩, ?_⟩
  rintro ⟨py, px, _, _, _, h⟩
  have hp : (sprite [0x80] []).fb = clearedFramebuffer := rfl
  rw [hp, pixel_cleared] at h
  cases h

/-- DrawingTwiceRestoresTheScreen: vector G-INV's first draw, onto a screen that is off (so VF is 0 after it and the
sprite turns pixels on), and a screen where the one pixel of the sprite is on (so it turns none on, log 16) -/
theorem witness_drawing_twice :
    let s := sprite [0x3C, 0x42] [(0, 10), (1, 5)]
    let t := nextOr s (exec (.drwVxVyN 0 1 2) s)
    let s' := { sprite [0x80] [] with fb := setPixel s0.fb 0 0 true }
    faultOf (.drwVxVyN 0 1 2) s = none ∧ exec (.drwVxVyN 0 1 2) s = .next t ∧ t.reg vf = 0 ∧
    t.i = s.i ∧ t.mem = s.mem ∧ t.reg 0 = s.reg 0 ∧ t.reg 1 = s.reg 1 ∧
    spriteTurnsOn s 0 1 2 ∧ spriteFlips s' 0 1 1 ∧
    (nextOr s' (exec (.drwVxVyN 0 1 1) (nextOr s' (exec (.drwVxVyN 0 1 1) s')))).reg vf = 0 :=
  ⟨by decide, rfl, by decide, rfl, rfl, by decide, by decide, ⟨5, 12, by decide⟩, ⟨0, 0, by decide⟩, by decide⟩

/-- KeySkipsFollowTheHeldState: a value that names a key and one that names none -/
theorem witness_keys :
    ((withRegs [(1, 15)]).reg 1).toNat ≤ 15 ∧ ((withRegs [(1, 16)]).reg 1).toNat > 15 := by decide

/-- KeyWaitFollowsItsEvent -/
theorem witness_key_wait :
    (s0.announce ⟨.press 0xF, 0⟩).input.ev = .press 0xF ∧ (s0.announce ⟨.cancel, 0⟩).input.ev = .cancel ∧
    (s0.announce ⟨.none, 0⟩).input.ev = .none ∧ Fetches (about 0xF30A) (.ldVxK 3) :=
  ⟨rfl, rfl, rfl, fetches_about _ _ (by decide) (by decide)⟩

end Witnesses

end Sys2Proof.Tests
end

/-! SUPPORT. What executing one instruction can do to the state, said once (30_encoding.md R63, R66), and the
statements about the state that follow: its frames, its bounds and its halted statuses. -/

namespace Sys2Proof.Machine

section ExecEffects

/-- The shapes of change an instruction can make, each with the table entries of Safety that admit it. A fault of the
instruction's own is a change of the status. -/
inductive ExecEffect (i : Instr) (s : State) : State → Prop
  | status (st : Status) (admitted : [.status] ⊆ mayWrite i := by simp [mayWrite]) :
      ExecEffect i s { s with status := st }
  | setReg (x : Nibble) (b : Byte) (dest : destination i = some x)
      (admitted : [.regs] ⊆ mayWrite i := by simp [mayWrite]) : ExecEffect i s (s.setReg x b)
  | setRegFlag (x : Nibble) (b : Byte) (f : Bool) (flag : writesFlag i = true)
      (admitted : [.regs] ⊆ mayWrite i := by simp [mayWrite]) : ExecEffect i s (s.setRegFlag x b f)
  | setRegs (x : Nibble) (bs : List Byte) (dest : destination i = some x) (len : bs.length = x.toNat + 1)
      (admitted : [.regs] ⊆ mayWrite i := by simp [mayWrite]) : ExecEffect i s (s.setRegs bs)
  | setIndex (w : Word) (admitted : [.index] ⊆ mayWrite i := by simp [mayWrite]) :
      ExecEffect i s (s.setIndex w)
  | setDt (b : Byte) (admitted : [.dt] ⊆ mayWrite i := by simp [mayWrite]) :
      ExecEffect i s { s with dt := b }
  | setSt (b : Byte) (admitted : [.st] ⊆ mayWrite i := by simp [mayWrite]) :
      ExecEffect i s { s with st := b }
  | clear (fb : Framebuffer) (admitted : [.fb] ⊆ mayWrite i := by simp [mayWrite]) :
      ExecEffect i s { s with fb := fb }
  | draw (fb : Framebuffer) (f : Bool) (flag : writesFlag i = true)
      (admitted : [.fb, .regs] ⊆ mayWrite i := by simp [mayWrite]) :
      ExecEffect i s ({ s with fb := fb }.setFlag f)
  | store (a : Nat) (bs : List Byte) (admitted : [.mem] ⊆ mayWrite i := by simp [mayWrite]) :
      ExecEffect i s (s.writeBytes a bs)
  | skip (c : Bool) (admitted : [.pc] ⊆ mayWrite i := by simp [mayWrite]) : ExecEffect i s (s.skipIf c)
  | jump (nnn : Addr12) (admitted : [.pc] ⊆ mayWrite i := by simp [mayWrite]) :
      ExecEffect i s (s.jump (zextAddr nnn))
  | jumpOffset (nnn : Addr12) (b : Byte) (mode : s.cfg.bnnnMode = .jumpV0)
      (admitted : [.pc] ⊆ mayWrite i := by simp [mayWrite]) :
      ExecEffect i s (s.jump (zextAddr nnn + b.setWidth 16))
  | pop (ra : Word) (u : State) (popped : s.pop = some (ra, u))
      (admitted : [.pc, .stack] ⊆ mayWrite i := by simp [mayWrite]) : ExecEffect i s (u.jump ra)
  | push (nnn : Addr12) (u : State) (pushed : s.push s.pc = some u)
      (admitted : [.pc, .stack] ⊆ mayWrite i := by simp [mayWrite]) :
      ExecEffect i s (u.jump (zextAddr nnn))

/-- Every instruction answers a next state, and its change has one of the shapes. -/
theorem exec_eq_next (i : Instr) (s : State) : ∃ t, exec i s = .next t ∧ ExecEffect i s t := by
  cases i with
  | cls => exact ⟨_, rfl, .clear _⟩
  | ret =>
    simp only [exec, execRet]
    split
    · exact ⟨_, rfl, .status _⟩
    · next ra u hpop => exact ⟨_, rfl, .pop ra u hpop⟩
  | jp nnn => exact ⟨_, rfl, .jump nnn⟩
  | call nnn =>
    simp only [exec, execCall]
    split
    · exact ⟨_, rfl, .status _⟩
    · next u hpush => exact ⟨_, rfl, .push nnn u hpush⟩
  | jpV0Nnn nnn =>
    simp only [exec, execJpV0Nnn]
    split
    · exact ⟨_, rfl, .status _⟩
    · next hmode => exact ⟨_, rfl, .jumpOffset nnn _ hmode⟩
  | seVxKk | sneVxKk | seVxVy | sneVxVy => exact ⟨_, rfl, .skip _⟩
  | skpVx | sknpVx =>
    simp only [exec, execSkpVx, execSknpVx]
    split
    · exact ⟨_, rfl, .status _⟩
    · exact ⟨_, rfl, .skip _⟩
  | ldVxKk | addVxKk | ldVxVy | orVxVy | andVxVy | xorVxVy | rndVxKk | ldVxDt =>
    exact ⟨_, rfl, .setReg _ _ rfl⟩
  | addVxVy | subVxVy | shrVx | subnVxVy | shlVx =>
    exact ⟨_, rfl, .setRegFlag _ _ _ rfl⟩
  | ldINnn | addIVx | ldFVx => exact ⟨_, rfl, .setIndex _⟩
  | ldDtVx => exact ⟨_, rfl, .setDt _⟩
  | ldStVx => exact ⟨_, rfl, .setSt _⟩
  | drwVxVyN =>
    simp only [exec, execDrwVxVyN]
    split
    · exact ⟨_, rfl, .status _⟩
    · exact ⟨_, rfl, .draw _ _ rfl⟩
  | ldVxK x =>
    simp only [exec, execLdVxK, State.waitForKey]
    split
    · exact ⟨_, rfl, .setReg x _ rfl⟩
    · exact ⟨_, rfl, .status _⟩
    · exact ⟨_, rfl, .status _⟩
  | ldBVx | ldMemIVx =>
    simp only [exec, execLdBVx, execLdMemIVx, State.storeSpan_eq]
    split
    · exact ⟨_, rfl, .status _⟩
    · next hstore =>
      split at hstore
      · cases hstore
        exact ⟨_, rfl, .store _ _⟩
      · cases hstore
  | ldVxMemI x =>
    simp only [exec, execLdVxMemI, State.loadSpan_eq]
    split
    · exact ⟨_, rfl, .status _⟩
    · next hload =>
      split at hload
      · cases hload
        exact ⟨_, rfl, .setRegs x _ rfl (State.length_readBytes ..)⟩
      · cases hload

/-- What an instruction that answers a next state did. -/
theorem exec_effect {i : Instr} {s t : State} (h : exec i s = .next t) : ExecEffect i s t := by
  obtain ⟨u, hu, heff⟩ := exec_eq_next i s
  rw [hu] at h
  cases h
  exact heff

end ExecEffects

section Frames

theorem ExecEffect.changesOnly {i : Instr} {s t : State} (h : ExecEffect i s t) :
    ChangesOnly (mayWrite i) s t := by
  cases h with
  | status st hw => exact (changesOnly_status s st).mono hw
  | setReg x b _ hw => exact (changesOnly_regs s _).mono hw
  | setRegFlag x b f _ hw => exact (changesOnly_setRegFlag s x b f).mono hw
  | setRegs x bs _ _ hw => exact (changesOnly_regs s _).mono hw
  | setIndex w hw => exact (changesOnly_index s w).mono hw
  | setDt b hw => exact (changesOnly_dt s b).mono hw
  | setSt b hw => exact (changesOnly_st s b).mono hw
  | clear fb hw => exact (changesOnly_fb s fb).mono hw
  | draw fb f _ hw =>
    have hfb : ChangesOnly [.fb, .regs] s { s with fb := fb } := (changesOnly_fb s fb).mono (by simp)
    exact (hfb.trans ((changesOnly_regs _ _).mono (by simp))).mono hw
  | store a bs hw => exact (changesOnly_writeBytes s a bs).mono hw
  | skip c hw => exact (changesOnly_skipIf s c).mono hw
  | jump nnn hw => exact (changesOnly_pc s _).mono hw
  | jumpOffset nnn b _ hw => exact (changesOnly_pc s _).mono hw
  | pop ra u hpop hw =>
    obtain ⟨-, -, -, rfl⟩ := State.pop_eq_some hpop
    exact (changesOnly_pc_stack s s.stack _ ra).mono hw
  | push nnn u hpush hw =>
    obtain ⟨-, rfl⟩ := State.push_eq_some hpush
    exact (changesOnly_pc_stack s _ _ _).mono hw

/-- Settles O21: each shape of change keeps to the parts the instruction may write. -/
theorem instructionsWriteOnlyTheirParts : Obligations.InstructionsWriteOnlyTheirParts := by
  intro i s t h
  exact (exec_effect h).changesOnly

/-- A change that is no flag write leaves VF alone unless VF is the destination (10_state.md R11). -/
theorem ExecEffect.reg_vf {i : Instr} {s t : State} (h : ExecEffect i s t) (hflag : writesFlag i = false)
    (hdest : destination i ≠ some vf) : t.reg vf = s.reg vf := by
  cases h with
  | setReg x b hx =>
    have hne : vf ≠ x := fun e => hdest (e ▸ hx)
    exact State.reg_setReg_ne s b hne
  | setRegs x bs hx hlen =>
    have hne : x.toNat ≠ 15 := fun e => hdest (by rw [hx, BitVec.eq_of_toNat_eq (y := vf) e])
    have hout : ¬ vf.toNat < bs.length := by
      have := x.isLt
      have : vf.toNat = 15 := rfl
      omega
    rw [State.reg_setRegs, dif_neg hout]
  | setRegFlag _ _ _ hf => simp [hflag] at hf
  | draw _ _ hf => simp [hflag] at hf
  | store a bs =>
    obtain ⟨m, hm⟩ := State.writeBytes_frame bs s a
    rw [hm]
    rfl
  | skip c => exact State.reg_skipIf s c vf
  | pop ra u hpop =>
    obtain ⟨-, -, -, rfl⟩ := State.pop_eq_some hpop
    rfl
  | push nnn u hpush =>
    obtain ⟨-, rfl⟩ := State.push_eq_some hpush
    rfl
  | status | setIndex | setDt | setSt | clear | jump | jumpOffset => rfl

/-- Settles O22: of the changes that write registers, those that are no flag write stop short of VF. -/
theorem onlyFlagWritersOrDestinationsChangeVF : Obligations.OnlyFlagWritersOrDestinationsChangeVF := by
  intro i s t h hflag hdest
  exact (exec_effect h).reg_vf hflag hdest

end Frames

section Bounds

/-- The invariant speaks of memory, stack, `PC` and parameters alone. -/
theorem State.Inv.of_same {s t : State} (h : s.Inv) (hmem : t.mem = s.mem) (hstack : t.stack = s.stack)
    (hpc : t.pc = s.pc) (hcfg : t.cfg = s.cfg) : t.Inv where
  mem_wf := by rw [hmem, hcfg]; exact h.mem_wf
  returns := by rw [hstack]; exact h.returns
  pc_le := by rw [hpc, hcfg]; exact h.pc_le

theorem State.Inv.jump {s : State} (h : s.Inv) {w : Word} (hw : w.toNat ≤ pcLimit s.cfg.bnnnMode) :
    (s.jump w).Inv :=
  ⟨h.mem_wf, h.returns, hw⟩

theorem le_pcLimit (m : BnnnMode) : 0x1002 ≤ pcLimit m := by
  cases m <;> decide

theorem State.advancePc_pc_toNat_le (s : State) : s.advancePc.pc.toNat ≤ s.pc.toNat + 2 := by
  rw [State.advancePc_pc, BitVec.toNat_add]
  exact Nat.mod_le _ _

theorem State.Inv.advancePc {s : State} (h : s.Inv) (hpc : s.pc.toNat ≤ 0x1000) : s.advancePc.Inv := by
  refine h.jump (w := s.pc + 2) ?_
  have hadv := s.advancePc_pc_toNat_le
  have hlim := le_pcLimit s.cfg.bnnnMode
  rw [State.advancePc_pc] at hadv
  omega

/-- An instruction entered with `PC` at most 0x1000, as after any fetch, keeps the invariant. -/
theorem ExecEffect.keeps_inv {i : Instr} {s t : State} (h : ExecEffect i s t) (hs : s.Inv)
    (hpc : s.pc.toNat ≤ 0x1000) : t.Inv := by
  have hlim := le_pcLimit s.cfg.bnnnMode
  cases h with
  | status | setReg | setRegFlag | setRegs | setIndex | setDt | setSt | clear | draw =>
    exact hs.of_same rfl rfl rfl rfl
  | store a bs =>
    have hwf := State.wf_writeBytes bs a hs.mem_wf
    obtain ⟨m, hm⟩ := State.writeBytes_frame bs s a
    rw [hm] at hwf ⊢
    exact ⟨hwf, hs.returns, hs.pc_le⟩
  | skip c =>
    cases c with
    | false => exact hs
    | true => exact hs.advancePc hpc
  | jump nnn =>
    refine hs.jump ?_
    have := nnn.isLt
    rw [zextAddr_toNat]
    omega
  | jumpOffset nnn b hmode =>
    refine hs.jump ?_
    have hn := nnn.isLt
    have hb := b.isLt
    rw [hmode, BitVec.toNat_add, zextAddr_toNat, setWidth_eq_ofNat, BitVec.toNat_ofNat]
    simp only [pcLimit]
    omega
  | pop ra u hpop =>
    obtain ⟨-, hlt, rfl, rfl⟩ := State.pop_eq_some hpop
    have hra := hs.returns _ hlt
    exact ⟨hs.mem_wf, hs.returns, by simp only [State.jump]; omega⟩
  | push nnn u hpush =>
    obtain ⟨hlt, rfl⟩ := State.push_eq_some hpush
    have hn := nnn.isLt
    refine ⟨hs.mem_wf, fun j hj => ?_, ?_⟩
    · simp only [State.jump, Vector.getElem_set]
      split
      · exact hpc
      · exact hs.returns j hj
    · simp only [State.jump, zextAddr_toNat]
      omega

/-- A Step in WAIT changes registers and status alone (44_input_timers.md R176). -/
theorem State.resumeWait_frame (s : State) (x : Nibble) :
    ∃ v st, s.resumeWait x = { s with v := v, status := st } := by
  unfold State.resumeWait
  split
  · exact ⟨_, _, rfl⟩
  · exact ⟨s.v, _, rfl⟩
  · exact ⟨s.v, s.status, rfl⟩

/-- A fetched word lies inside the space (30_encoding.md R64). -/
theorem State.pc_lt_of_fetch {s : State} {w : Word} (h : s.fetchWord = some w) : s.pc.toNat < 0xFFF := by
  by_contra hout
  have hnone := (State.fetchWord_eq_none s).2 (by omega)
  rw [hnone] at h
  cases h

theorem step_keeps_inv {s t : State} (hs : s.Inv) (h : step s = .next t) : t.Inv := by
  have hadvance {w : Word} (hf : s.fetchWord = some w) : s.advancePc.Inv :=
    hs.advancePc (by have := State.pc_lt_of_fetch hf; omega)
  obtain ⟨-, -, rfl⟩ | ⟨w, e, -, hf, -, rfl⟩ | ⟨w, i, u, -, hf, -, hexec, rfl⟩ | ⟨x, -, rfl⟩ | ⟨-, rfl⟩ |
    ⟨_, _, _, _, -, rfl⟩ := step_cases h
  · exact hs.of_same rfl rfl rfl rfl
  · exact (hadvance hf).of_same rfl rfl rfl rfl
  · have hpc : s.advancePc.pc.toNat ≤ 0x1000 := by
      have := State.pc_lt_of_fetch hf
      have := s.advancePc_pc_toNat_le
      omega
    have hu := (exec_effect hexec).keeps_inv (hadvance hf) hpc
    exact hu.of_same rfl rfl rfl rfl
  · obtain ⟨v, st, hw⟩ := s.resumeWait_frame x
    rw [hw]
    exact hs.of_same rfl rfl rfl rfl
  · exact hs.of_same rfl rfl rfl rfl
  · exact hs.of_same rfl rfl rfl rfl

/-- Settles O18: a fetch bounds `PC` by 0x1000, and from there every shape of change keeps the invariant. -/
theorem stepKeepsTheBoundsAndMemoryForm : Obligations.StepKeepsTheBoundsAndMemoryForm := by
  intro s t hs h
  exact step_keeps_inv hs h

theorem State.resetWith_inv (cfg : Config) : (State.resetWith cfg).Inv where
  mem_wf := Memory.wf_nil cfg
  returns := by simp [State.resetWith]
  pc_le := (show 0x200 ≤ 0x1002 by decide).trans (le_pcLimit cfg.bnnnMode)

/-- Settles O19: memory lists nothing, the stack is zero and `PC` is 0x200. -/
theorem resetMeetsTheBoundsAndMemoryForm : Obligations.ResetMeetsTheBoundsAndMemoryForm :=
  ⟨State.resetWith_inv, State.resetWith_inv defaultConfig⟩

end Bounds

section HostOperations

/-- A Step in a halted status only uses up its inputs (60_exceptions.md R212). -/
theorem step_of_halted {s : State} (h : s.status.halted = true) : step s = .next s.consumeInput := by
  cases hs : s.status with
  | run => simp [hs, Status.halted] at h
  | wait x => simp [hs, Status.halted] at h
  | cancelled => exact step_of_cancelled hs
  | faulted c a w n => exact step_of_faulted hs

/-- Settles O17: of the operations that touch the status, Step repeats a halted one and Reset sets RUN. -/
theorem onlyResetLeavesAHaltedStatus : Obligations.OnlyResetLeavesAHaltedStatus := by
  intro op s t hhalted h
  cases op with
  | reset =>
    cases h
    exact .inr ⟨rfl, rfl⟩
  | load image =>
    cases h
    obtain ⟨m, hm⟩ := State.loadAt_frame image s progBase
    left
    rw [State.load, hm]
  | step inp =>
    have hstep : step (s.announce inp) = .next t := h
    rw [step_of_halted (show (s.announce inp).status.halted = true from hhalted)] at hstep
    cases hstep
    exact .inl rfl
  | setKeys | tick | readFramebuffer | readStatus =>
    cases h
    exact .inl rfl

theorem changesOnly_resumeWait (s : State) (x : Nibble) :
    ChangesOnly [.regs, .status] s (s.resumeWait x) := by
  obtain ⟨v, st, hw⟩ := s.resumeWait_frame x
  rw [hw]
  have hv : ChangesOnly [.regs, .status] s { s with v := v } := (changesOnly_regs s v).mono (by simp)
  exact hv.trans ((changesOnly_status _ st).mono (by simp))

theorem Part.same_consumeInput (p : Part) (s : State) : p.same s s.consumeInput := by
  cases p <;> simp [Part.same]

/-- Beyond the registers, `PC` and the status, a Step changes only what the instruction it fetched may write. -/
theorem step_same_or_fetches {s t : State} {p : Part} (h : step s = .next t) (hregs : p ≠ .regs)
    (hpc : p ≠ .pc) (hstatus : p ≠ .status) : p.same s t ∨ ∃ i, Fetches s i ∧ p ∈ mayWrite i := by
  have hadvance : p.same s s.advancePc := (changesOnly_pc s _).parts p (by simp [hpc])
  have hfault (u : State) (st : Status) : p.same u { u with status := st } :=
    (changesOnly_status u st).parts p (by simp [hstatus])
  obtain ⟨-, -, rfl⟩ | ⟨w, e, -, -, -, rfl⟩ | ⟨w, i, u, hs, hf, hd, hexec, rfl⟩ | ⟨x, -, rfl⟩ | ⟨-, rfl⟩ |
    ⟨_, _, _, _, -, rfl⟩ := step_cases h
  · exact .inl (Part.same_trans (hfault s _) (p.same_consumeInput _))
  · exact .inl (Part.same_trans hadvance (Part.same_trans (hfault _ _) (p.same_consumeInput _)))
  · by_cases hp : p ∈ mayWrite i
    · exact .inr ⟨i, ⟨hs, w, hf, hd⟩, hp⟩
    · have hu : p.same s.advancePc u := (exec_effect hexec).changesOnly.parts p hp
      exact .inl (Part.same_trans hadvance (Part.same_trans hu (p.same_consumeInput _)))
  · have hw : p.same s (s.resumeWait x) := (changesOnly_resumeWait s x).parts p (by simp [hregs, hstatus])
    exact .inl (Part.same_trans hw (p.same_consumeInput _))
  · exact .inl (p.same_consumeInput s)
  · exact .inl (p.same_consumeInput s)

theorem dt_mem_mayWrite {i : Instr} (h : .dt ∈ mayWrite i) : ∃ x, i = .ldDtVx x := by
  cases i <;> simp [mayWrite] at h ⊢

theorem st_mem_mayWrite {i : Instr} (h : .st ∈ mayWrite i) : ∃ x, i = .ldStVx x := by
  cases i <;> simp [mayWrite] at h ⊢

theorem keys_notMem_mayWrite (i : Instr) : .keys ∉ mayWrite i := by
  cases i <;> simp [mayWrite]

theorem step_dt {s t : State} (h : step s = .next t) : t.dt = s.dt ∨ ∃ x, Fetches s (.ldDtVx x) := by
  obtain hsame | ⟨i, hi, hp⟩ := step_same_or_fetches (p := .dt) h (by simp) (by simp) (by simp)
  · exact .inl hsame
  · obtain ⟨x, rfl⟩ := dt_mem_mayWrite hp
    exact .inr ⟨x, hi⟩

theorem step_st {s t : State} (h : step s = .next t) : t.st = s.st ∨ ∃ x, Fetches s (.ldStVx x) := by
  obtain hsame | ⟨i, hi, hp⟩ := step_same_or_fetches (p := .st) h (by simp) (by simp) (by simp)
  · exact .inl hsame
  · obtain ⟨x, rfl⟩ := st_mem_mayWrite hp
    exact .inr ⟨x, hi⟩

theorem step_keys {s t : State} (h : step s = .next t) : t.keys = s.keys := by
  obtain hsame | ⟨i, -, hp⟩ := step_same_or_fetches (p := .keys) h (by simp) (by simp) (by simp)
  · exact hsame
  · exact absurd hp (keys_notMem_mayWrite i)

theorem fetches_announce {s : State} {inp : StepInput} {i : Instr} :
    Fetches (s.announce inp) i ↔ Fetches s i := Iff.rfl

/-- Settles O23: a Step reaches a timer only through its own instruction and the keys not at all; of the other
operations each leaves alone what it is not named for. -/
theorem timersAndKeysChangeOnlyWhereNamed : Obligations.TimersAndKeysChangeOnlyWhereNamed := by
  intro op s t h
  cases op with
  | reset => simp
  | tick =>
    cases h
    simp
  | setKeys mask =>
    cases h
    simp
  | load image =>
    cases h
    obtain ⟨m, hm⟩ := State.loadAt_frame image s progBase
    simp [State.load, hm]
  | readFramebuffer | readStatus =>
    cases h
    simp
  | step inp =>
    have hstep : step (s.announce inp) = .next t := h
    refine ⟨fun hne => ?_, fun hne => ?_, fun hne => absurd (step_keys hstep) hne⟩
    · obtain ⟨x, hx⟩ := (step_dt hstep).resolve_left hne
      exact .inr (.inr ⟨inp, x, rfl, fetches_announce.1 hx⟩)
    · obtain ⟨x, hx⟩ := (step_st hstep).resolve_left hne
      exact .inr (.inr ⟨inp, x, rfl, fetches_announce.1 hx⟩)

end HostOperations

end Sys2Proof.Machine

/-! SUPPORT. What memory holds after a store and after Load, and what the next fetch there reads (20_memory.md R41 to
R47, R50, R52). -/

namespace Sys2Proof.Machine

section StoredBytes

/-- Settles O24: the read rules of one store, and the canonical form it keeps. -/
theorem writtenByteIsReadBack : Obligations.WrittenByteIsReadBack := by
  intro s a b hwf ha
  have hspace : a < memSize := Nat.lt_succ_of_le ha
  exact ⟨s.readByte_writeByte_same b hspace (Memory.wf_rises hwf),
    fun a' hne => s.readByte_writeByte_ne b hne, State.wf_writeByte a b hwf⟩

theorem State.readByte_writeBytes_add {s : State} {a k : Nat} {bs : List Byte} (hfit : a + bs.length ≤ memSize)
    (h : s.mem.rises = true) (hk : k < bs.length) : (s.writeBytes a bs).readByte (a + k) = bs[k] := by
  rw [State.readByte_writeBytes bs (a + k) hfit h, dif_pos (by omega)]
  simp only [Nat.add_sub_cancel_left]

/-- A fetch where two or more bytes were just stored reads the first two, big-endian (20_memory.md R41, R50). -/
theorem State.fetchWord_writeBytes {s : State} {pc : Word} {bs : List Byte}
    (hfit : pc.toNat + bs.length ≤ memSize) (h : s.mem.rises = true) (hlen : 1 < bs.length) :
    { s.writeBytes pc.toNat bs with pc := pc }.fetchWord = some (bs[0] ++ bs[1]) := by
  have hpc : pc.toNat + 1 ≤ 0xFFF := by
    unfold memSize at hfit
    omega
  have hhi := State.readByte_writeBytes_add (k := 0) hfit h (by omega)
  have hlo := State.readByte_writeBytes_add (k := 1) hfit h hlen
  rw [State.fetchWord_eq_some _ hpc, ← hhi, ← hlo]
  rfl

/-- Settles O25: FX55, FX33 and Load of two bytes are runs of stores, the first two bytes of which are fetched. -/
theorem storedBytesAreFetched : Obligations.StoredBytesAreFetched := by
  intro s hwf
  have hrises := Memory.wf_rises hwf
  refine ⟨fun x t hx hfit hexec => ?_, fun x t hfit hexec => ?_, fun hi lo t hload => ?_⟩
  · rw [exec, execLdMemIVx_stores hfit] at hexec
    cases hexec
    have hlen := s.regsUpTo_length x
    rw [State.fetchWord_writeBytes (by unfold memSize; omega) hrises (by omega),
      s.regsUpTo_get x 0 _ (by decide), s.regsUpTo_get x 1 _ (by decide)]
  · rw [exec, execLdBVx_stores x hfit] at hexec
    cases hexec
    exact State.fetchWord_writeBytes (bs := decimalDigits (s.reg x)) (Nat.succ_le_succ hfit) hrises
      (by simp [decimalDigits])
  · have hstores : s.load [hi, lo] = s.writeBytes (0x200#16).toNat [hi, lo] := rfl
    rw [HostOp.perform, hstores] at hload
    cases hload
    exact State.fetchWord_writeBytes (pc := 0x200#16) (bs := [hi, lo]) (by simp [memSize]) hrises (by simp)

/-- Settles O53: Load read as one read of any address, and its frame. -/
theorem loadStoresTheImageThatFits : Obligations.LoadStoresTheImageThatFits := by
  intro image s hwf
  refine ⟨s.load image, rfl, fun k hk hfit => ?_, fun a hout => ?_, changesOnly_loadAt s progBase image⟩
  · rw [State.load, State.readByte_loadAt image _ hwf, dif_pos (by unfold progBase; omega)]
    simp only [progBase, Nat.add_sub_cancel_left]
  · rw [State.load, State.readByte_loadAt image _ hwf, dif_neg (by unfold progBase; omega)]

end StoredBytes

end Sys2Proof.Machine

/-! SUPPORT. The decoder against the encoder and against R70's list of illegal words (30_encoding.md R61, R66 to R71),
and the Steps that fetch an illegal word or a skip (R63, R70, R80). -/

namespace Sys2Proof.Machine

section RoundTrip

/-- Settles O1: the table's rows, one `RoundTrip` lemma each. -/
theorem decodeInvertsEncode : Obligations.DecodeInvertsEncode := by
  intro m i h
  cases i with
  | cls => exact Laws.RoundTrip.cls m h
  | ret => exact Laws.RoundTrip.ret m h
  | jp nnn => exact Laws.RoundTrip.jp nnn m h
  | call nnn => exact Laws.RoundTrip.call nnn m h
  | seVxKk x kk => exact Laws.RoundTrip.seVxKk x kk m h
  | sneVxKk x kk => exact Laws.RoundTrip.sneVxKk x kk m h
  | seVxVy x y => exact Laws.RoundTrip.seVxVy x y m h
  | ldVxKk x kk => exact Laws.RoundTrip.ldVxKk x kk m h
  | addVxKk x kk => exact Laws.RoundTrip.addVxKk x kk m h
  | ldVxVy x y => exact Laws.RoundTrip.ldVxVy x y m h
  | orVxVy x y => exact Laws.RoundTrip.orVxVy x y m h
  | andVxVy x y => exact Laws.RoundTrip.andVxVy x y m h
  | xorVxVy x y => exact Laws.RoundTrip.xorVxVy x y m h
  | addVxVy x y => exact Laws.RoundTrip.addVxVy x y m h
  | subVxVy x y => exact Laws.RoundTrip.subVxVy x y m h
  | shrVx x y => exact Laws.RoundTrip.shrVx x y m h
  | subnVxVy x y => exact Laws.RoundTrip.subnVxVy x y m h
  | shlVx x y => exact Laws.RoundTrip.shlVx x y m h
  | sneVxVy x y => exact Laws.RoundTrip.sneVxVy x y m h
  | ldINnn nnn => exact Laws.RoundTrip.ldINnn nnn m h
  | jpV0Nnn nnn => exact Laws.RoundTrip.jpV0Nnn nnn m h
  | rndVxKk x kk => exact Laws.RoundTrip.rndVxKk x kk m h
  | drwVxVyN x y n => exact Laws.RoundTrip.drwVxVyN x y n m h
  | skpVx x => exact Laws.RoundTrip.skpVx x m h
  | sknpVx x => exact Laws.RoundTrip.sknpVx x m h
  | ldVxDt x => exact Laws.RoundTrip.ldVxDt x m h
  | ldVxK x => exact Laws.RoundTrip.ldVxK x m h
  | ldDtVx x => exact Laws.RoundTrip.ldDtVx x m h
  | ldStVx x => exact Laws.RoundTrip.ldStVx x m h
  | addIVx x => exact Laws.RoundTrip.addIVx x m h
  | ldFVx x => exact Laws.RoundTrip.ldFVx x m h
  | ldBVx x => exact Laws.RoundTrip.ldBVx x m h
  | ldMemIVx x => exact Laws.RoundTrip.ldMemIVx x m h
  | ldVxMemI x => exact Laws.RoundTrip.ldVxMemI x m h

/-- A word that is an instruction's word decodes to it. -/
theorem decode_of_encode_eq {m : BnnnMode} {w : Word} {i : Instr} (h : encode i = w)
    (hwf : i.wellFormed m = true) : decode m w = .ok i :=
  h ▸ decodeInvertsEncode m i hwf

theorem wellFormed_jumpV0 (i : Instr) : i.wellFormed .jumpV0 = true := by
  cases i <;> rfl

theorem tableWord_toNat (w : Word) : tableWord 16 w.toNat = w := by
  rw [tableWord, Nat.mod_eq_of_lt w.isLt, BitVec.ofNat_toNat, BitVec.setWidth_eq]

/-- Settles O5: the table's number of a word, cut into its two bytes, is read back as that word. -/
theorem tableNumbersDecode : Obligations.TableNumbersDecode := by
  intro i
  have hdecode : decode .jumpV0 (encode i) = .ok i := decodeInvertsEncode _ i (wellFormed_jumpV0 i)
  simp only [decodeTableWord, tableWord_toNat, decodeBytes, wordOfBytes_high_low, hdecode, Except.map]

/-- Settles O6: each written-out word is the encoding of its instruction. -/
theorem writtenOutWordsDecode : Obligations.WrittenOutWordsDecode :=
  ⟨fun _ => decode_of_encode_eq rfl rfl, fun _ => decode_of_encode_eq rfl rfl,
    fun _ => decode_of_encode_eq rfl rfl, fun _ => decode_of_encode_eq rfl rfl,
    fun _ => decode_of_encode_eq rfl rfl, fun _ => decode_of_encode_eq rfl rfl,
    fun _ => decode_of_encode_eq rfl rfl, fun _ => decode_of_encode_eq rfl rfl⟩

end RoundTrip

section Decoder

/-- R70's illegal set over the fields of the word (R61). -/
theorem illegalWord_iff (m : BnnnMode) (w : Word) : illegalWord m w ↔
    (opField w = 0x0#4 ∧ w ≠ 0x00E0#16 ∧ w ≠ 0x00EE#16) ∨
    (opField w = 0x5#4 ∧ nField w ≠ 0#4) ∨
    (opField w = 0x8#4 ∧ nField w ∈ [0x8#4, 0x9#4, 0xA#4, 0xB#4, 0xC#4, 0xD#4, 0xF#4]) ∨
    (opField w = 0x9#4 ∧ nField w ≠ 0#4) ∨
    (opField w = 0xB#4 ∧ m = .unknown) ∨
    (opField w = 0xE#4 ∧ kkField w ∉ [0x9E#8, 0xA1#8]) ∨
    (opField w = 0xF#4 ∧ kkField w ∉ [0x07#8, 0x0A#8, 0x15#8, 0x18#8, 0x1E#8, 0x29#8, 0x33#8, 0x55#8, 0x65#8]) := by
  simp [illegalWord, ← opField_toNat, ← nField_toNat, ← kkField_toNat, ← BitVec.toNat_inj]

variable {m : BnnnMode} {w : Word}

/-- A word of the `xyn` format whose `n` selects the row (R68). -/
theorem eq_of_op_n {op n : Nibble} (h : opField w = op ∧ nField w = n) :
    op ++ xField w ++ yField w ++ n = w :=
  h.2 ▸ eq_of_fields_xyn h.1

/-- A word of the `xkk` format whose `kk` selects the row (R69). -/
theorem eq_of_op_kk {op : Nibble} {kk : Byte} (h : opField w = op ∧ kkField w = kk) :
    op ++ xField w ++ kk = w :=
  h.2 ▸ eq_of_fields_xkk h.1

/-- What a decoding of `w` must be: the legal instruction that `w` is the word of, or a rejection of an illegal word. -/
def DecodesRightly (m : BnnnMode) (w : Word) : Except DecodeError Instr → Prop
  | .ok i => encode i = w ∧ i.wellFormed m = true ∧ ¬ illegalWord m w
  | .error _ => illegalWord m w

/-- R70 lists no word of the families that have no sub-selector. -/
theorem not_illegalWord_of_op (hop : (opField w).toNat ∈ [0x1, 0x2, 0x3, 0x4, 0x6, 0x7, 0xA, 0xC, 0xD]) :
    ¬ illegalWord m w := by
  simp only [List.mem_cons, List.not_mem_nil, or_false] at hop
  rcases hop with h | h | h | h | h | h | h | h | h <;> simp [illegalWord, ← opField_toNat, h]

theorem decodeFamily0_rightly (hop : opField w = 0x0#4) : DecodesRightly m w (decodeFamily0 w) := by
  have hillegal : illegalWord m w ↔ w ≠ 0x00E0#16 ∧ w ≠ 0x00EE#16 := by simp [illegalWord_iff, hop]
  unfold decodeFamily0
  split_ifs with hcls hret
  · exact ⟨hcls.symm, rfl, mt hillegal.1 (by simp [hcls])⟩
  · exact ⟨hret.symm, rfl, mt hillegal.1 (by simp [hret])⟩
  · exact hillegal.2 ⟨hcls, hret⟩

theorem decodeFamily5_rightly (hop : opField w = 0x5#4) : DecodesRightly m w (decodeFamily5 w) := by
  have hillegal : illegalWord m w ↔ nField w ≠ 0#4 := by simp [illegalWord_iff, hop]
  unfold decodeFamily5
  split_ifs with hn
  · exact ⟨eq_of_op_n ⟨hop, hn⟩, rfl, mt hillegal.1 (not_not.2 hn)⟩
  · exact hillegal.2 hn

theorem decodeFamily9_rightly (hop : opField w = 0x9#4) : DecodesRightly m w (decodeFamily9 w) := by
  have hillegal : illegalWord m w ↔ nField w ≠ 0#4 := by simp [illegalWord_iff, hop]
  unfold decodeFamily9
  split_ifs with hn
  · exact ⟨eq_of_op_n ⟨hop, hn⟩, rfl, mt hillegal.1 (not_not.2 hn)⟩
  · exact hillegal.2 hn

theorem decodeFamily8_rightly (hop : opField w = 0x8#4) : DecodesRightly m w (decodeFamily8 w) := by
  have hillegal : illegalWord m w ↔ (nField w).toNat ∈ [0x8, 0x9, 0xA, 0xB, 0xC, 0xD, 0xF] := by
    simp [illegalWord_iff, hop, ← BitVec.toNat_inj]
  unfold decodeFamily8
  dsimp only
  split
  case h_10 =>
    have hlt := (nField w).isLt
    refine hillegal.2 ?_
    simp only [List.mem_cons, List.not_mem_nil, or_false, imp_false] at *
    omega
  all_goals
    next hn => exact ⟨eq_of_op_n ⟨hop, BitVec.eq_of_toNat_eq hn⟩, rfl, mt hillegal.1 (by simp [hn])⟩

theorem decodeFamilyB_rightly (hop : opField w = 0xB#4) : DecodesRightly m w (decodeFamilyB m w) := by
  have hillegal : illegalWord m w ↔ m = .unknown := by simp [illegalWord_iff, hop]
  cases m with
  | jumpV0 => exact ⟨eq_of_fields_nnn hop, rfl, mt hillegal.1 (by simp)⟩
  | unknown => exact hillegal.2 rfl

theorem decodeFamilyE_rightly (hop : opField w = 0xE#4) : DecodesRightly m w (decodeFamilyE w) := by
  have hillegal : illegalWord m w ↔ kkField w ∉ [0x9E#8, 0xA1#8] := by simp [illegalWord_iff, hop]
  unfold decodeFamilyE
  split_ifs with hskp hsknp
  · exact ⟨eq_of_op_kk ⟨hop, hskp⟩, rfl, mt hillegal.1 (by simp [hskp])⟩
  · exact ⟨eq_of_op_kk ⟨hop, hsknp⟩, rfl, mt hillegal.1 (by simp [hsknp])⟩
  · exact hillegal.2 (by simp [hskp, hsknp])

theorem decodeFamilyF_rightly (hop : opField w = 0xF#4) : DecodesRightly m w (decodeFamilyF w) := by
  have hillegal : illegalWord m w ↔
      kkField w ∉ [0x07#8, 0x0A#8, 0x15#8, 0x18#8, 0x1E#8, 0x29#8, 0x33#8, 0x55#8, 0x65#8] := by
    simp [illegalWord_iff, hop]
  unfold decodeFamilyF
  dsimp only
  split_ifs
  case neg => exact hillegal.2 (by simp [*])
  all_goals
    next hkk => exact ⟨eq_of_op_kk ⟨hop, hkk⟩, rfl, mt hillegal.1 (by simp [hkk])⟩

/-- The decoder is right on every word: family by family, and where a family has no sub-selector, by its fields. -/
theorem decode_rightly (m : BnnnMode) (w : Word) : DecodesRightly m w (decode m w) := by
  have hop {op : Nibble} (h : (opField w).toNat = op.toNat) : opField w = op := BitVec.eq_of_toNat_eq h
  unfold decode
  split
  case h_1 h => exact decodeFamily0_rightly (hop h)
  case h_6 h => exact decodeFamily5_rightly (hop h)
  case h_9 h => exact decodeFamily8_rightly (hop h)
  case h_10 h => exact decodeFamily9_rightly (hop h)
  case h_12 h => exact decodeFamilyB_rightly (hop h)
  case h_15 h => exact decodeFamilyE_rightly (hop h)
  case h_16 =>
    have hlt := (opField w).isLt
    simp only [imp_false] at *
    exact decodeFamilyF_rightly (hop (show _ = 0xF by omega))
  -- JP, CALL and LD I: an address
  case h_2 h | h_3 h | h_11 h =>
    exact ⟨eq_of_fields_nnn (hop h), rfl, not_illegalWord_of_op (by simp [h])⟩
  -- SE, SNE, LD, ADD and RND: a register and an immediate
  case h_4 h | h_5 h | h_7 h | h_8 h | h_13 h =>
    exact ⟨eq_of_fields_xkk (hop h), rfl, not_illegalWord_of_op (by simp [h])⟩
  -- DRW: two registers and a height
  case h_14 h =>
    exact ⟨eq_of_fields_xyn (hop h), rfl, not_illegalWord_of_op (by simp [h])⟩

theorem decode_ok {i : Instr} (h : decode m w = .ok i) :
    encode i = w ∧ i.wellFormed m = true ∧ ¬ illegalWord m w := by
  have := decode_rightly m w
  rwa [h] at this

theorem decode_error {e : DecodeError} (h : decode m w = .error e) : illegalWord m w := by
  have := decode_rightly m w
  rwa [h] at this

end Decoder

section DecoderClaims

/-- Settles O2: the accepting half of `decode_rightly`. -/
theorem encodeInvertsDecode : Obligations.EncodeInvertsDecode := by
  intro m w i h
  obtain ⟨henc, hwf, -⟩ := decode_ok h
  exact ⟨henc, hwf⟩

/-- Settles O4: `decode_rightly` says that a rejected word is illegal and that an accepted one is not. -/
theorem unknownWordsAreTheListedOnes : Obligations.UnknownWordsAreTheListedOnes := by
  intro m w
  refine ⟨fun ⟨e, he⟩ => decode_error he, fun hillegal => ?_⟩
  cases hd : decode m w with
  | error e => exact ⟨e, rfl⟩
  | ok i =>
    obtain ⟨-, -, hlegal⟩ := decode_ok hd
    exact absurd hillegal hlegal

end DecoderClaims

section Rows

theorem encode_and_mask (i : Instr) : encode i &&& i.mask = i.pattern := by
  cases i with
  | cls | ret => rfl
  | jp nnn | call nnn | ldINnn nnn | jpV0Nnn nnn =>
    exact (mask_F000_iff _ _).2 (fields_nnn _ nnn).1
  | seVxKk x kk | sneVxKk x kk | ldVxKk x kk | addVxKk x kk | rndVxKk x kk =>
    exact (mask_F000_iff _ _).2 (fields_xkk _ x kk).1
  | drwVxVyN x y n => exact (mask_F000_iff _ _).2 (fields_xyn _ x y n).1
  | seVxVy x y | ldVxVy x y | orVxVy x y | andVxVy x y | xorVxVy x y | addVxVy x y | subVxVy x y | shrVx x y
  | subnVxVy x y | shlVx x y | sneVxVy x y =>
    obtain ⟨hop, -, -, hn⟩ := fields_xyn _ x y _
    exact (mask_F00F_iff _ _ _).2 ⟨hop, hn⟩
  | skpVx x | sknpVx x | ldVxDt x | ldVxK x | ldDtVx x | ldStVx x | addIVx x | ldFVx x | ldBVx x | ldMemIVx x
  | ldVxMemI x =>
    obtain ⟨hop, -, hkk⟩ := fields_xkk _ x _
    exact (mask_F0FF_iff _ _ _).2 ⟨hop, hkk⟩

/-- The instruction of the same row with the operand fields of `w` (R61). -/
def withOperands (w : Word) : Instr → Instr
  | .cls => .cls
  | .ret => .ret
  | .jp _ => .jp (nnnField w)
  | .call _ => .call (nnnField w)
  | .seVxKk _ _ => .seVxKk (xField w) (kkField w)
  | .sneVxKk _ _ => .sneVxKk (xField w) (kkField w)
  | .seVxVy _ _ => .seVxVy (xField w) (yField w)
  | .ldVxKk _ _ => .ldVxKk (xField w) (kkField w)
  | .addVxKk _ _ => .addVxKk (xField w) (kkField w)
  | .ldVxVy _ _ => .ldVxVy (xField w) (yField w)
  | .orVxVy _ _ => .orVxVy (xField w) (yField w)
  | .andVxVy _ _ => .andVxVy (xField w) (yField w)
  | .xorVxVy _ _ => .xorVxVy (xField w) (yField w)
  | .addVxVy _ _ => .addVxVy (xField w) (yField w)
  | .subVxVy _ _ => .subVxVy (xField w) (yField w)
  | .shrVx _ _ => .shrVx (xField w) (yField w)
  | .subnVxVy _ _ => .subnVxVy (xField w) (yField w)
  | .shlVx _ _ => .shlVx (xField w) (yField w)
  | .sneVxVy _ _ => .sneVxVy (xField w) (yField w)
  | .ldINnn _ => .ldINnn (nnnField w)
  | .jpV0Nnn _ => .jpV0Nnn (nnnField w)
  | .rndVxKk _ _ => .rndVxKk (xField w) (kkField w)
  | .drwVxVyN _ _ _ => .drwVxVyN (xField w) (yField w) (nField w)
  | .skpVx _ => .skpVx (xField w)
  | .sknpVx _ => .sknpVx (xField w)
  | .ldVxDt _ => .ldVxDt (xField w)
  | .ldVxK _ => .ldVxK (xField w)
  | .ldDtVx _ => .ldDtVx (xField w)
  | .ldStVx _ => .ldStVx (xField w)
  | .addIVx _ => .addIVx (xField w)
  | .ldFVx _ => .ldFVx (xField w)
  | .ldBVx _ => .ldBVx (xField w)
  | .ldMemIVx _ => .ldMemIVx (xField w)
  | .ldVxMemI _ => .ldVxMemI (xField w)

theorem withOperands_row (w : Word) (m : BnnnMode) (j : Instr) :
    (withOperands w j).mask = j.mask ∧ (withOperands w j).pattern = j.pattern ∧
      (withOperands w j).wellFormed m = j.wellFormed m := by
  cases j <;> exact ⟨rfl, rfl, rfl⟩

/-- A word that matches a row is the word of that row's instruction with its operands: the mask drops only the
operand fields. -/
theorem encode_withOperands {w : Word} {j : Instr} (h : w &&& j.mask = j.pattern) :
    encode (withOperands w j) = w := by
  cases j with
  | cls | ret => exact ((and_mask_FFFF w).symm.trans h).symm
  | jp | call | ldINnn | jpV0Nnn => exact eq_of_fields_nnn ((mask_F000_iff w _).1 h)
  | seVxKk | sneVxKk | ldVxKk | addVxKk | rndVxKk => exact eq_of_fields_xkk ((mask_F000_iff w _).1 h)
  | drwVxVyN => exact eq_of_fields_xyn ((mask_F000_iff w _).1 h)
  | seVxVy | ldVxVy | orVxVy | andVxVy | xorVxVy | addVxVy | subVxVy | shrVx | subnVxVy | shlVx | sneVxVy =>
    exact eq_of_op_n ((mask_F00F_iff w _ _).1 h)
  | skpVx | sknpVx | ldVxDt | ldVxK | ldDtVx | ldStVx | addIVx | ldFVx | ldBVx | ldMemIVx | ldVxMemI =>
    exact eq_of_op_kk ((mask_F0FF_iff w _ _).1 h)

/-- Settles O3: a decoded word is its instruction's encoding, which matches the row; a word that matches a row is an
encoding of that row, and so decodes to it. -/
theorem decodingFollowsMaskAndMatch : Obligations.DecodingFollowsMaskAndMatch := by
  intro m w j hj
  constructor
  · rintro ⟨i, hd, hmask, hpattern⟩
    obtain ⟨rfl, -, -⟩ := decode_ok hd
    rw [← hmask, ← hpattern]
    exact encode_and_mask i
  · intro h
    obtain ⟨hmask, hpattern, hwf⟩ := withOperands_row w m j
    exact ⟨withOperands w j, decode_of_encode_eq (encode_withOperands h) (hwf.trans hj), hmask, hpattern⟩

end Rows

section Steps

/-- Settles O7: the fetch either leaves the space or answers the two bytes at `PC`, and the Step laws say the rest. -/
theorem stepFetchesDecodesAndExecutes : Obligations.StepFetchesDecodesAndExecutes := by
  intro s hs
  refine ⟨fun hout => step_of_no_fetch hs ((State.fetchWord_eq_none s).2 hout), fun hin => ?_⟩
  have hf := State.fetchWord_eq_some s hin
  refine ⟨fun e hd => step_of_unknown hs hf hd, fun i hd => ?_⟩
  obtain ⟨t, ht⟩ := exec_answers_next i s.advancePc
  refine ⟨t, ht, ?_⟩
  rw [step_of_decoded hs hf hd, ht, onNext]

/-- A Step on an illegal word (30_encoding.md R70, 60_exceptions.md R203). -/
theorem step_of_illegal {s : State} {w : Word} (hs : s.status = .run) (hf : s.fetchWord = some w)
    (hillegal : illegalWord s.cfg.bnnnMode w) :
    step s = .next (s.advancePc.takeFault .unknownOpcode s.pc w 0).consumeInput := by
  obtain ⟨e, he⟩ := (unknownWordsAreTheListedOnes s.cfg.bnnnMode w).2 hillegal
  exact step_of_unknown hs hf he

/-- Settles O8: the Step takes the fault, and a Step in FAULTED keeps the status. -/
theorem illegalWordFaultsTheProgram : Obligations.IllegalWordFaultsTheProgram := by
  intro s w hs hf hillegal
  exact ⟨_, step_of_illegal hs hf hillegal, rfl, rfl, rfl, _, step_of_faulted rfl, rfl⟩

theorem State.fetchWord_resetWith (cfg : Config) : (State.resetWith cfg).fetchWord = some 0x0000#16 := by
  have hpc : (State.resetWith cfg).pc.toNat = 0x200 := rfl
  have hzero {a : Nat} (ha : 0x200 ≤ a) : (State.resetWith cfg).readByte a = 0 :=
    resetByte_other cfg (.inr (by omega))
  rw [State.fetchWord_eq_some _ (by omega), hzero (by omega), hzero (by omega)]
  rfl

/-- Settles O52: the empty program memory reads 0000, which is illegal. -/
theorem freshCoreFaultsOnItsFirstStep : Obligations.FreshCoreFaultsOnItsFirstStep := by
  intro cfg
  have hillegal : illegalWord cfg.bnnnMode 0x0000#16 := .inl (by decide)
  exact ⟨_, step_of_illegal rfl (State.fetchWord_resetWith cfg) hillegal, rfl, rfl⟩

theorem byte_beq (a b : Byte) : (a == b) = decide (a.toNat = b.toNat) := by
  rw [Bool.beq_eq_decide_eq]
  exact decide_eq_decide.2 BitVec.toNat_inj.symm

theorem byte_bne (a b : Byte) : (a != b) = decide (a.toNat ≠ b.toNat) := by
  rw [bne, byte_beq, decide_not]

/-- A skip passes over one word exactly when its condition holds (40_control_flow.md R80). -/
theorem exec_of_skipCondition {i : Instr} {s : State} {holds : Bool} (h : skipCondition i s = some holds) :
    exec i s = .next (s.skipIf holds) := by
  cases i with
  | seVxKk x kk =>
    cases h
    rw [exec, execSeVxKk, byte_beq]
  | sneVxKk x kk =>
    cases h
    rw [exec, execSneVxKk, byte_bne]
  | seVxVy x y =>
    cases h
    rw [exec, execSeVxVy, byte_beq]
  | sneVxVy x y =>
    cases h
    rw [exec, execSneVxVy, byte_bne]
  | skpVx x =>
    obtain ⟨hkey, hheld⟩ := Option.dite_none_right_eq_some.1 h
    cases hheld
    rw [exec, execSkpVx_key hkey, beq_true]
  | sknpVx x =>
    obtain ⟨hkey, hheld⟩ := Option.dite_none_right_eq_some.1 h
    cases hheld
    rw [exec, execSknpVx_key hkey, beq_false]
  | _ => cases h

theorem State.skipIf_advancePc_pc (s : State) (c : Bool) :
    (s.advancePc.skipIf c).pc.toNat = (s.pc.toNat + if c = true then 4 else 2) % 65536 := by
  cases c with
  | false => exact BitVec.toNat_add ..
  | true =>
    have hpc : (s.advancePc.skipIf true).pc = s.pc + 4 := BitVec.add_assoc s.pc 2 2
    rw [hpc]
    exact BitVec.toNat_add ..

theorem State.skipIf_advancePc_frame (s : State) (c : Bool) :
    s.advancePc.skipIf c = { s with pc := (s.advancePc.skipIf c).pc } := by
  cases c <;> rfl

/-- Settles O13: the Step is the skip of `exec_of_skipCondition` from `a + 2`, after which the inputs are used up. -/
theorem skipsPassOverOneWord : Obligations.SkipsPassOverOneWord := by
  rintro s i holds ⟨hs, w, hf, hd⟩ hcond
  have hstep : step s = .next (s.advancePc.skipIf holds).consumeInput := by
    rw [step_of_decoded hs hf hd, exec_of_skipCondition hcond, onNext]
  refine ⟨_, hstep, ?_, s.skipIf_advancePc_pc holds, ?_⟩
  · rw [s.skipIf_advancePc_frame holds]
    exact hs
  · rw [s.skipIf_advancePc_frame holds]
    rfl

end Steps

end Sys2Proof.Machine

/-! SUPPORT. The control flow instructions (40_control_flow.md R80 to R88): the word of each, and what executing it does
to `PC` and the stack. -/

namespace Sys2Proof.Machine

section ControlFlow

/-- The word of an instruction that is legal in every mode. -/
theorem encodedAs_encode {i : Instr} (h : ∀ m, i.wellFormed m = true) : EncodedAs (encode i) i :=
  fun m => decodeInvertsEncode m i (h m)

theorem execJpV0Nnn_jumps {s : State} (nnn : Addr12) (h : s.cfg.bnnnMode = .jumpV0) :
    execJpV0Nnn nnn s = .next (s.jump (zextAddr nnn + (s.reg 0x0#4).setWidth 16)) := by
  rw [execJpV0Nnn, h]

/-- A 12-bit address plus a byte is below 65536, so the jump's addition never wraps (R88). -/
theorem zextAddr_add_byte_toNat (nnn : Addr12) (b : Byte) :
    (zextAddr nnn + b.setWidth 16).toNat = nnn.toNat + b.toNat := by
  have hn := nnn.isLt
  have hb := b.isLt
  rw [BitVec.toNat_add, zextAddr_toNat, setWidth_eq_ofNat, BitVec.toNat_ofNat]
  omega

/-- RET after a push of `ra` gives back `ra` and the stack pointer before the push, whatever else has changed (R83). -/
theorem exec_ret_after_push {s t r : State} {ra : Word} (hpush : s.push ra = some t) (hstack : r.stack = t.stack)
    (hsp : r.sp = t.sp) : ∃ u, exec .ret r = .next u ∧ u.pc = ra ∧ u.sp = s.sp := by
  obtain ⟨hlt, rfl⟩ := State.push_eq_some hpush
  have hval : r.sp.val = s.sp.val + 1 := congrArg Fin.val hsp
  refine ⟨_, execRet_pops (by omega) (by omega), ?_, Fin.ext ?_⟩
  · simp [hstack, hval]
  · simp [hval]

/-- A skip changes `PC` alone, by one more instruction width exactly when its condition holds (R80). -/
theorem exec_skip_pc {i : Instr} {s : State} {p : Prop} [Decidable p] (h : skipCondition i s = some (decide p)) :
    ∃ t, exec i s = .next t ∧ ChangesOnly [.pc] s t ∧
      t.pc.toNat = if p then (s.pc.toNat + 2) % 65536 else s.pc.toNat := by
  refine ⟨_, exec_of_skipCondition h, changesOnly_skipIf s _, ?_⟩
  by_cases hp : p
  · simp [hp]
  · simp [hp]

/-- Settles O26: the two cases of RET, a stack with an entry and an empty one. -/
theorem returnPopsIntoPC : Obligations.ReturnPopsIntoPC := by
  refine ⟨encodedAs_encode (i := .ret) fun _ => rfl, fun s => ⟨fun h => ?_, execRet_empty⟩⟩
  exact ⟨_, execRet_pops (by omega) (by omega), rfl, rfl, rfl, changesOnly_pc_stack s s.stack _ _⟩

/-- Settles O27: JP is a jump to its zero-extended target. -/
theorem jumpSetsPC : Obligations.JumpSetsPC := by
  intro nnn s
  exact ⟨encodedAs_encode (i := .jp nnn) fun _ => rfl, s.jump (zextAddr nnn), rfl, zextAddr_toNat nnn,
    changesOnly_pc s _⟩

/-- Settles O28: below 16 entries CALL is a push, which `exec_ret_after_push` undoes, and a jump; at 16 it faults. -/
theorem callPushesAndReturnUndoes : Obligations.CallPushesAndReturnUndoes := by
  intro nnn s
  refine ⟨encodedAs_encode (i := .call nnn) fun _ => rfl, fun hlt => ?_, execCall_full nnn⟩
  have hpush : s.push s.pc = some _ := dif_pos hlt
  refine ⟨_, execCall_pushes nnn hlt, rfl, fun j hj => ?_, zextAddr_toNat nnn, changesOnly_pc_stack s _ _ _,
    fun r hstack hsp => exec_ret_after_push hpush hstack hsp⟩
  simp only [Vector.getElem_set, eq_comm]

/-- Settles O29: both are skips whose condition compares the numbers. -/
theorem immediateSkipsCompare : Obligations.ImmediateSkipsCompare := by
  intro x kk s
  exact ⟨encodedAs_encode (i := .seVxKk x kk) fun _ => rfl, encodedAs_encode (i := .sneVxKk x kk) fun _ => rfl,
    exec_skip_pc rfl, exec_skip_pc rfl⟩

/-- Settles O30: both are skips whose condition compares the numbers. -/
theorem registerSkipsCompare : Obligations.RegisterSkipsCompare := by
  intro x y s
  exact ⟨encodedAs_encode (i := .seVxVy x y) fun _ => rfl, encodedAs_encode (i := .sneVxVy x y) fun _ => rfl,
    exec_skip_pc rfl, exec_skip_pc rfl⟩

/-- Settles O31: under JumpV0 the word is that of a legal instruction; under Unknown it is in R70's illegal set, so the
Step that fetches it faults. -/
theorem jumpWithOffsetFollowsItsMode : Obligations.JumpWithOffsetFollowsItsMode := by
  intro nnn s
  have hillegal : illegalWord .unknown (0xB#4 ++ nnn) := by
    simp [illegalWord_iff, (fields_nnn 0xB#4 nnn).1]
  refine ⟨decodeInvertsEncode .jumpV0 (.jpV0Nnn nnn) rfl, (unknownWordsAreTheListedOnes _ _).2 hillegal,
    fun hmode => ?_, fun hmode hs hf => ?_⟩
  · exact ⟨_, execJpV0Nnn_jumps nnn hmode, zextAddr_add_byte_toNat nnn _, changesOnly_pc s _⟩
  · exact ⟨_, step_of_illegal hs hf (hmode ▸ hillegal), rfl⟩

end ControlFlow

end Sys2Proof.Machine

/-! SUPPORT. The register arithmetic (41_register_arith.md R100 to R112): a plain write of a result, and a result
followed by a flag. -/

namespace Sys2Proof.Machine

section Arithmetic

/-- A plain write leaves `V[x]` with the property its value has, and changes nothing else (10_state.md R11). -/
theorem exec_setReg_spec {i : Instr} {s : State} {x : Nibble} {b : Byte} (result : Byte → Prop)
    (hexec : exec i s = .next (s.setReg x b)) (hb : result b) :
    ∃ t, exec i s = .next t ∧ result (t.reg x) ∧ RegsExcept [x] s t ∧ ChangesOnly [.regs] s t := by
  refine ⟨_, hexec, ?_, fun r hr => ?_, changesOnly_regs s _⟩
  · rwa [State.reg_setReg_same]
  · exact State.reg_setReg_ne s b (mt List.mem_singleton.2 hr)

/-- A result and then a flag: VF ends holding the flag for every `x`, and `V[x]` has the result unless `x` is F
(10_state.md R12). -/
theorem exec_setRegFlag_spec {i : Instr} {s : State} {x : Nibble} {b : Byte} {f : Bool} {flag : Nat}
    (result : Byte → Prop) (hexec : exec i s = .next (s.setRegFlag x b f)) (hb : result b)
    (hf : (flagByte f).toNat = flag) :
    ∃ t, exec i s = .next t ∧ (x ≠ vf → result (t.reg x)) ∧ (t.reg vf).toNat = flag ∧
      RegsExcept [x, vf] s t ∧ ChangesOnly [.regs] s t := by
  refine ⟨_, hexec, fun hx => ?_, ?_, fun r hr => ?_, changesOnly_setRegFlag s x b f⟩
  · rwa [State.reg_setRegFlag, if_neg hx, if_pos rfl]
  · rwa [State.reg_setRegFlag, if_pos rfl]
  · obtain ⟨hrx, hrvf⟩ : r ≠ x ∧ r ≠ vf := by simpa using hr
    rw [State.reg_setRegFlag, if_neg hrvf, if_neg hrx]

theorem flagByte_decide_toNat (p : Prop) [Decidable p] : (flagByte (decide p)).toNat = if p then 1 else 0 := by
  by_cases hp : p
  · simp [flagByte, hp]
  · simp [flagByte, hp]

/-- Bit `k` of a byte, as a flag, is the bit of its number. -/
theorem flagByte_getLsbD_toNat (a : Byte) (k : Nat) : (flagByte (a.getLsbD k)).toNat = a.toNat / 2 ^ k % 2 := by
  rw [BitVec.getLsbD, Nat.testBit_eq_decide_div_mod_eq, flagByte_decide_toNat]
  rcases Nat.mod_two_eq_zero_or_one (a.toNat / 2 ^ k) with h | h
  · simp [h]
  · simp [h]

/-- The difference of two bytes is that of their numbers, modulo 256 (R106). -/
theorem byte_sub_toNat (a b : Byte) : ((a - b).toNat : Int) = ((a.toNat : Int) - b.toNat) % 256 := by
  have ha := a.isLt
  have hb := b.isLt
  rw [BitVec.toNat_sub]
  omega

theorem byte_shiftRight_toNat (a : Byte) : (a >>> 1).toNat = a.toNat / 2 := by
  rw [BitVec.toNat_ushiftRight, Nat.shiftRight_one]

theorem byte_shiftLeft_toNat (a : Byte) : (a <<< 1).toNat = a.toNat * 2 % 256 := by
  rw [BitVec.toNat_shiftLeft, Nat.shiftLeft_eq, Nat.pow_one]

theorem shiftedOutRight_toNat (a : Byte) : (flagByte (shiftedOutRight a)).toNat = a.toNat % 2 := by
  rw [shiftedOutRight, flagByte_getLsbD_toNat, Nat.pow_zero, Nat.div_one]

theorem shiftedOutLeft_toNat (a : Byte) : (flagByte (shiftedOutLeft a)).toNat = a.toNat / 128 := by
  have ha := a.isLt
  rw [shiftedOutLeft, flagByte_getLsbD_toNat]
  omega

/-- Settles O35: the carry is decided on the operands as they were before the write. -/
theorem addWritesSumThenCarry : Obligations.AddWritesSumThenCarry := by
  intro x y s
  exact ⟨encodedAs_encode (i := .addVxVy x y) fun _ => rfl,
    exec_setRegFlag_spec (·.toNat = _) rfl (BitVec.toNat_add ..) (flagByte_decide_toNat _)⟩

/-- Settles O36: SUBN is SUB with the operands exchanged. -/
theorem subtractionsWriteDifferenceThenNoBorrow : Obligations.SubtractionsWriteDifferenceThenNoBorrow := by
  intro x y s
  exact ⟨encodedAs_encode (i := .subVxVy x y) fun _ => rfl, encodedAs_encode (i := .subnVxVy x y) fun _ => rfl,
    exec_setRegFlag_spec (fun r => (r.toNat : Int) = _) rfl (byte_sub_toNat ..) (flagByte_decide_toNat _),
    exec_setRegFlag_spec (fun r => (r.toNat : Int) = _) rfl (byte_sub_toNat ..) (flagByte_decide_toNat _)⟩

/-- Settles O37: the bit shifted out is the remainder of halving, or the quotient by 128. -/
theorem shiftsWriteResultThenBitShiftedOut : Obligations.ShiftsWriteResultThenBitShiftedOut := by
  intro x y s
  exact ⟨encodedAs_encode (i := .shrVx x y) fun _ => rfl, encodedAs_encode (i := .shlVx x y) fun _ => rfl,
    exec_setRegFlag_spec (·.toNat = _) rfl (byte_shiftRight_toNat _) (shiftedOutRight_toNat _),
    exec_setRegFlag_spec (·.toNat = _) rfl (byte_shiftLeft_toNat _) (shiftedOutLeft_toNat _)⟩

/-- Settles O32: a plain write of `kk`. -/
theorem loadImmediateWritesTheRegister : Obligations.LoadImmediateWritesTheRegister := by
  intro x kk s
  exact ⟨encodedAs_encode (i := .ldVxKk x kk) fun _ => rfl, exec_setReg_spec (· = kk) rfl rfl⟩

/-- Settles O33: a plain write of the sum, which is the exact sum modulo 256. -/
theorem addImmediateWrapsWithoutFlag : Obligations.AddImmediateWrapsWithoutFlag := by
  intro x kk s
  exact ⟨encodedAs_encode (i := .addVxKk x kk) fun _ => rfl,
    exec_setReg_spec (·.toNat = _) rfl (BitVec.toNat_add ..)⟩

/-- Settles O34: plain writes of the copy and of the three results, bit by bit. -/
theorem copyAndLogicWriteNoFlag : Obligations.CopyAndLogicWriteNoFlag := by
  intro x y s
  refine ⟨encodedAs_encode (i := .ldVxVy x y) fun _ => rfl, encodedAs_encode (i := .orVxVy x y) fun _ => rfl,
    encodedAs_encode (i := .andVxVy x y) fun _ => rfl, encodedAs_encode (i := .xorVxVy x y) fun _ => rfl,
    exec_setReg_spec (· = s.reg y) rfl rfl, ?_, ?_, ?_⟩
  · exact exec_setReg_spec (fun r => ∀ k, r.getLsbD k = ((s.reg x).getLsbD k || (s.reg y).getLsbD k)) rfl
      fun k => BitVec.getLsbD_or
  · exact exec_setReg_spec (fun r => ∀ k, r.getLsbD k = ((s.reg x).getLsbD k && (s.reg y).getLsbD k)) rfl
      fun k => BitVec.getLsbD_and
  · exact exec_setReg_spec (fun r => ∀ k, r.getLsbD k = ((s.reg x).getLsbD k ^^ (s.reg y).getLsbD k)) rfl
      fun k => BitVec.getLsbD_xor

end Arithmetic

end Sys2Proof.Machine

/-! SUPPORT. The index and memory instructions (42_index_memory.md R130 to R136): a write of `I`, a run of stores from
`I`, and a run of loads from `I`. -/

namespace Sys2Proof.Machine

section IndexAndMemory

/-- A write of `I` leaves there the number its value has, and changes nothing else (R130 to R132). -/
theorem exec_setIndex_spec {i : Instr} {s : State} {w : Word} {k : Nat} (hexec : exec i s = .next (s.setIndex w))
    (hw : w.toNat = k) : ∃ t, exec i s = .next t ∧ t.i.toNat = k ∧ ChangesOnly [.index] s t :=
  ⟨_, hexec, hw, changesOnly_index s w⟩

/-- `I` plus a byte, modulo 65536 (R131). -/
theorem index_add_byte_toNat (w : Word) (b : Byte) :
    (w + b.setWidth 16).toNat = (w.toNat + b.toNat) % 65536 := by
  rw [BitVec.toNat_add, setWidth_eq_ofNat, BitVec.toNat_ofNat, Nat.add_mod_mod]

/-- A run of stores from `I` that stays in the space leaves its bytes there in order, and changes no other byte and no
other part (20_memory.md R43, R44). -/
theorem exec_store_spec {i : Instr} {s : State} {bs : List Byte} {last : Nat} (hwf : s.mem.wf s.cfg = true)
    (hexec : exec i s = .next (s.writeBytes s.i.toNat bs)) (hlen : bs.length = last + 1)
    (hfit : s.i.toNat + last ≤ 0xFFF) :
    ∃ t, exec i s = .next t ∧ (∀ k (hk : k < bs.length), t.readByte (s.i.toNat + k) = bs[k]) ∧
      (∀ a, a < s.i.toNat ∨ s.i.toNat + last < a → t.readByte a = s.readByte a) ∧ ChangesOnly [.mem] s t := by
  have hspace : s.i.toNat + bs.length ≤ memSize := by unfold memSize; omega
  have hrises := Memory.wf_rises hwf
  refine ⟨_, hexec, fun k hk => State.readByte_writeBytes_add hspace hrises hk, fun a hout => ?_,
    changesOnly_writeBytes s _ bs⟩
  rw [State.readByte_writeBytes bs a hspace hrises, dif_neg (by omega)]

/-- FX65 within the space: `V[r]` is the byte at `I + r` up to `x`, and is kept above (R135). -/
theorem reg_setRegs_readBytes (s : State) (x r : Nibble) :
    (s.setRegs (s.readBytes s.i.toNat (x.toNat + 1))).reg r =
      if r.toNat ≤ x.toNat then s.readByte (s.i.toNat + r.toNat) else s.reg r := by
  simp only [State.reg_setRegs, State.length_readBytes, State.getElem_readBytes, Nat.lt_succ_iff, dite_eq_ite]

/-- Settles O40: the low nibble is at most 15, so the glyph lies at most 75 bytes into the font. -/
theorem fontLookupPointsAtTheGlyph : Obligations.FontLookupPointsAtTheGlyph := by
  intro x s
  obtain ⟨t, hexec, hindex, honly⟩ :=
    exec_setIndex_spec (i := .ldFVx x) rfl (glyphAddr_toNat s.cfg (s.reg x))
  exact ⟨encodedAs_encode (i := .ldFVx x) fun _ => rfl, t, hexec, hindex, by omega, by omega, honly⟩

/-- Settles O41: a run of three stores, each of a digit that fits in a byte, or the fault. -/
theorem decimalDigitsAreStored : Obligations.DecimalDigitsAreStored := by
  intro x s hwf
  refine ⟨encodedAs_encode (i := .ldBVx x) fun _ => rfl, fun hfit => ?_, execLdBVx_faults x⟩
  have hlen : (decimalDigits (s.reg x)).length = 3 := rfl
  have hbyte := (s.reg x).isLt
  obtain ⟨t, hexec, hread, hframe⟩ := exec_store_spec (i := .ldBVx x) hwf (execLdBVx_stores x hfit) hlen hfit
  refine ⟨t, hexec, ?_, ?_, ?_, hframe⟩
  · exact (congrArg BitVec.toNat (hread 0 (by omega))).trans (Nat.mod_eq_of_lt (by omega))
  · exact (congrArg BitVec.toNat (hread 1 (by omega))).trans (Nat.mod_eq_of_lt (by omega))
  · exact (congrArg BitVec.toNat (hread 2 (by omega))).trans (Nat.mod_eq_of_lt (by omega))

/-- Settles O42: a run of `x + 1` stores, or the fault. -/
theorem bulkStoreWritesRegistersInOrder : Obligations.BulkStoreWritesRegistersInOrder := by
  intro x s hwf
  refine ⟨encodedAs_encode (i := .ldMemIVx x) fun _ => rfl, fun hfit => ?_, execLdMemIVx_faults⟩
  have hlen := s.regsUpTo_length x
  obtain ⟨t, hexec, hread, hframe⟩ := exec_store_spec (i := .ldMemIVx x) hwf (execLdMemIVx_stores hfit) hlen hfit
  refine ⟨t, hexec, fun r hr => ?_, hframe⟩
  rw [hread r.toNat (by omega), s.regsUpTo_get x _ _ r.isLt, BitVec.ofNat_toNat, BitVec.setWidth_eq]

/-- Settles O43: one write of the registers from the bytes at `I`, or the fault. -/
theorem bulkLoadReadsRegistersInOrder : Obligations.BulkLoadReadsRegistersInOrder := by
  intro x s
  refine ⟨encodedAs_encode (i := .ldVxMemI x) fun _ => rfl, fun hfit => ?_, execLdVxMemI_faults⟩
  exact ⟨_, execLdVxMemI_loads hfit, reg_setRegs_readBytes s x, changesOnly_regs s _⟩

/-- Settles O39: both are writes of `I`, whose value's number is the address or the wrapped sum. -/
theorem indexLoadsAndAdds : Obligations.IndexLoadsAndAdds := by
  refine ⟨fun nnn s => ⟨encodedAs_encode (i := .ldINnn nnn) fun _ => rfl, ?_⟩,
    fun x s => ⟨encodedAs_encode (i := .addIVx x) fun _ => rfl, ?_⟩⟩
  · exact exec_setIndex_spec rfl (zextAddr_toNat nnn)
  · exact exec_setIndex_spec rfl (index_add_byte_toNat s.i (s.reg x))

end IndexAndMemory

end Sys2Proof.Machine

/-! SUPPORT. The sprite draw (43_graphics.md R150 to R157): the state a draw that fits leaves, its pixels and its
collision flag. -/

namespace Sys2Proof.Machine

section Graphics

/-- Every byte of the rows drawn lies in the address space (20_memory.md R44). -/
def SpriteFits (s : State) (y n : Nibble) : Prop :=
  drawnRows n (s.originRow y) = 0 ∨ s.i.toNat + drawnRows n (s.originRow y) ≤ memSize

/-- The bytes of the rows drawn. -/
def State.spriteBytes (s : State) (y n : Nibble) : List Byte :=
  s.readBytes s.i.toNat (drawnRows n (s.originRow y))

/-- The whole sprite drawn on the screen of `s`. -/
def State.drawing (s : State) (x y n : Nibble) : Drawing :=
  Drawing.rows { fb := s.fb, hit := false } (s.originColumn x) (s.originRow y) (s.spriteBytes y n)

/-- `s` with a drawing's pixels, and its collision flag in VF. -/
def State.putDrawing (s : State) (d : Drawing) : State := { s with fb := d.fb }.setFlag d.hit

theorem exec_drw_draws {s : State} {x y n : Nibble} (h : SpriteFits s y n) :
    exec (.drwVxVyN x y n) s = .next (s.putDrawing (s.drawing x y n)) :=
  execDrwVxVyN_draws h

theorem spriteFits_iff (s : State) (y n : Nibble) :
    SpriteFits s y n ↔
      min n.toNat (32 - (s.reg y).toNat % 32) = 0 ∨
        s.i.toNat + min n.toNat (32 - (s.reg y).toNat % 32) - 1 ≤ 0xFFF := by
  unfold SpriteFits drawnRows State.originRow memSize
  omega

/-- The fault table's row for a draw is the bounds check of its rows (60_exceptions.md R202). -/
theorem faultOf_drw_eq_none (s : State) (x y n : Nibble) :
    faultOf (.drwVxVyN x y n) s = none ↔ SpriteFits s y n := by
  rw [spriteFits_iff]
  simp only [faultOf, ite_eq_right_iff, reduceCtorEq, imp_false]
  omega

section Frame

theorem putDrawing_vf_eq_one (s : State) (d : Drawing) : (s.putDrawing d).reg vf = 1 ↔ d.hit = true := by
  rw [State.putDrawing, State.reg_setFlag, if_pos rfl]
  cases d.hit <;> decide

theorem putDrawing_vf_eq_zero (s : State) (d : Drawing) : (s.putDrawing d).reg vf = 0 ↔ ¬ d.hit = true := by
  rw [State.putDrawing, State.reg_setFlag, if_pos rfl]
  cases d.hit <;> decide

theorem regsExcept_putDrawing (s : State) (d : Drawing) : RegsExcept [vf] s (s.putDrawing d) := by
  intro r hr
  rw [State.putDrawing, State.reg_setFlag, if_neg (mt List.mem_singleton.2 hr)]
  rfl

theorem changesOnly_putDrawing (s : State) (d : Drawing) : ChangesOnly [.regs, .fb] s (s.putDrawing d) := by
  have hfb : ChangesOnly [.regs, .fb] s { s with fb := d.fb } := (changesOnly_fb s d.fb).mono (by simp)
  exact hfb.trans ((changesOnly_regs _ _).mono (by simp))

end Frame

section Pixels

theorem length_spriteBytes (s : State) (y n : Nibble) : (s.spriteBytes y n).length = drawnRows n (s.originRow y) :=
  State.length_readBytes ..

theorem originColumn_lt (s : State) (x : Nibble) : s.originColumn x < 64 := Nat.mod_lt _ (by decide)

/-- The rows drawn end at the bottom of the screen at the latest (R152). -/
theorem originRow_add_length_spriteBytes_le (s : State) (y n : Nibble) :
    s.originRow y + (s.spriteBytes y n).length ≤ 32 := by
  have htop : s.originRow y < 32 := Nat.mod_lt _ (by decide)
  rw [length_spriteBytes, drawnRows]
  omega

/-- On the screen, `spriteBit` is the bit the loops read: its row is one of the rows drawn. -/
theorem spriteBit_of_lt (s : State) (x y n : Nibble) {py : Nat} (px : Nat) (hpy : py < 32) :
    spriteBit s x y n py px =
      (decide (s.originRow y ≤ py ∧ py < s.originRow y + (s.spriteBytes y n).length) &&
        decide (spriteColumn (s.originColumn x) px < 8) &&
        ((s.spriteBytes y n)[py - s.originRow y]?.getD 0).getLsbD (7 - spriteColumn (s.originColumn x) px)) := by
  have hbit : spriteBit s x y n py px =
      (decide (s.originRow y ≤ py ∧ py < s.originRow y + n.toNat) &&
        decide (spriteColumn (s.originColumn x) px < 8) &&
        (s.readByte (s.i.toNat + (py - s.originRow y))).getLsbD (7 - spriteColumn (s.originColumn x) px)) := by
    rw [Bool.decide_and]
    rfl
  have hrows : s.originRow y ≤ py ∧ py < s.originRow y + n.toNat ↔
      s.originRow y ≤ py ∧ py < s.originRow y + (s.spriteBytes y n).length := by
    rw [length_spriteBytes, drawnRows]
    omega
  rw [hbit, decide_eq_decide.2 hrows]
  by_cases hin : s.originRow y ≤ py ∧ py < s.originRow y + (s.spriteBytes y n).length
  · have hk : py - s.originRow y < (s.spriteBytes y n).length := by omega
    have hbyte : (s.spriteBytes y n)[py - s.originRow y] = s.readByte (s.i.toNat + (py - s.originRow y)) :=
      State.getElem_readBytes ..
    rw [List.getElem?_eq_getElem hk, Option.getD_some, hbyte]
  · simp only [decide_eq_false hin, Bool.false_and]

theorem pixel_drawing (s : State) (x y n : Nibble) {py px : Nat} (hpy : py < 32) (hpx : px < 64) :
    pixel (s.drawing x y n).fb py px = (pixel s.fb py px ^^ spriteBit s x y n py px) := by
  rw [spriteBit_of_lt s x y n px hpy]
  exact (Drawing.rows_spec _ _ (originColumn_lt s x) (originRow_add_length_spriteBytes_le s y n)).1 py px hpx

theorem drawing_hit_iff (s : State) (x y n : Nibble) : (s.drawing x y n).hit = true ↔ spriteCollides s x y n := by
  have hbottom := originRow_add_length_spriteBytes_le s y n
  refine (Drawing.rows_spec _ _ (originColumn_lt s x) hbottom).2.trans ⟨?_, ?_⟩
  · rintro (h | ⟨py, px, htop, hlast, hpx, hcol, hbit, hon⟩)
    · cases h
    · have hpy : py < 32 := by omega
      refine ⟨py, px, hpy, hpx, ?_, hon⟩
      rw [spriteBit_of_lt s x y n px hpy, hbit, decide_eq_true ⟨htop, hlast⟩, decide_eq_true hcol]
      rfl
  · rintro ⟨py, px, hpy, hpx, hbit, hon⟩
    rw [spriteBit_of_lt s x y n px hpy] at hbit
    simp only [Bool.and_eq_true, decide_eq_true_eq] at hbit
    obtain ⟨⟨⟨htop, hlast⟩, hcol⟩, hbit⟩ := hbit
    exact .inr ⟨py, px, htop, hlast, hpx, hcol, hbit, hon⟩

end Pixels

/-- Settles O44: the drawing's pixels, its flag and its frame, or the fault. -/
theorem drawFlipsTheSpritePixels : Obligations.DrawFlipsTheSpritePixels := by
  intro x y n s h
  refine ⟨encodedAs_encode (i := .drwVxVyN x y n) fun _ => rfl, fun hfit => ?_, fun hout => ?_⟩
  · have hexec := exec_drw_draws (x := x) ((spriteFits_iff s y n).2 hfit)
    rw [← drawing_hit_iff s x y n]
    exact ⟨_, hexec, fun py px => pixel_drawing s x y n, (putDrawing_vf_eq_one _ _).2, (putDrawing_vf_eq_zero _ _).2,
      regsExcept_putDrawing _ _, changesOnly_putDrawing _ _⟩
  · have hnot : ¬ SpriteFits s y n := by
      rw [spriteFits_iff]
      omega
    exact execDrwVxVyN_faults hnot

/-- A sprite of height 0 has no bytes to load and no rows to draw, so the draw only writes a 0 flag. -/
theorem exec_drw_height_zero (s : State) (x y : Nibble) : exec (.drwVxVyN x y 0x0#4) s = .next (s.setFlag false) := by
  have hrows : drawnRows 0x0#4 (s.originRow y) = 0 := Nat.zero_min _
  have hbytes : s.spriteBytes y 0x0#4 = [] := by rw [State.spriteBytes, hrows]; rfl
  rw [exec_drw_draws (.inl hrows), State.drawing, hbytes]
  rfl

/-- Settles O45: such a draw writes the flag alone. -/
theorem drawOfHeightZeroOnlyClearsVF : Obligations.DrawOfHeightZeroOnlyClearsVF := by
  intro x y s
  exact ⟨_, exec_drw_height_zero s x y, rfl, State.reg_setReg_same s vf _,
    fun r hr => State.reg_setReg_ne s _ (mt List.mem_singleton.2 hr), changesOnly_regs s _⟩

section Twice

/-- `r` can start the second draw of the sprite `s` has drawn: it has the screen of the first draw, and the sprite and
its origin are as they were (43_graphics.md R157). -/
structure RedrawsFrom (s : State) (x y n : Nibble) (r : State) : Prop where
  /-- the screen is the one the first draw left -/
  fb : r.fb = (s.drawing x y n).fb
  /-- the sprite lies where it lay -/
  i : r.i = s.i
  /-- its bytes are the same -/
  bytes : ∀ a, r.readByte a = s.readByte a
  /-- the origin column is the same -/
  column : r.reg x = s.reg x
  /-- the origin row is the same -/
  row : r.reg y = s.reg y

variable {s r : State} {x y n : Nibble}

theorem RedrawsFrom.spriteBit_eq (h : RedrawsFrom s x y n r) (py px : Nat) :
    spriteBit r x y n py px = spriteBit s x y n py px := by
  simp only [spriteBit, h.i, h.bytes, h.column, h.row]

theorem RedrawsFrom.fits (h : RedrawsFrom s x y n r) (hs : SpriteFits s y n) : SpriteFits r y n := by
  rwa [SpriteFits, State.originRow, h.i, h.row]

theorem RedrawsFrom.pixel_eq (h : RedrawsFrom s x y n r) {py px : Nat} (hpy : py < 32) (hpx : px < 64) :
    pixel r.fb py px = (pixel s.fb py px ^^ spriteBit s x y n py px) := by
  rw [h.fb, pixel_drawing s x y n hpy hpx]

/-- Flipping the same pixels a second time gives the first screen back. -/
theorem RedrawsFrom.drawing_fb (h : RedrawsFrom s x y n r) : (r.drawing x y n).fb = s.fb := by
  refine framebuffer_ext fun py px hpy hpx => ?_
  rw [pixel_drawing r x y n hpy hpx, h.pixel_eq hpy hpx, h.spriteBit_eq, Bool.xor_assoc, Bool.xor_self, Bool.xor_false]

/-- A flipped pixel is on before the second draw exactly when it was off before the first. -/
theorem RedrawsFrom.collides_iff (h : RedrawsFrom s x y n r) : spriteCollides r x y n ↔ spriteTurnsOn s x y n := by
  unfold spriteCollides spriteTurnsOn
  refine exists_congr fun py => exists_congr fun px => and_congr_right fun hpy => and_congr_right fun hpx => ?_
  rw [h.spriteBit_eq]
  refine and_congr_right fun hbit => ?_
  rw [h.pixel_eq hpy hpx, hbit, Bool.xor_true, Bool.not_eq_true']

end Twice

/-- Without a collision, every pixel the sprite flips was off. -/
theorem spriteTurnsOn_iff_flips {s : State} {x y n : Nibble} (h : ¬ spriteCollides s x y n) :
    spriteTurnsOn s x y n ↔ spriteFlips s x y n := by
  constructor
  · rintro ⟨py, px, hpy, hpx, hbit, -⟩
    exact ⟨py, px, hpy, hpx, hbit⟩
  · rintro ⟨py, px, hpy, hpx, hbit⟩
    exact ⟨py, px, hpy, hpx, hbit, Bool.eq_false_iff.2 fun hon => h ⟨py, px, hpy, hpx, hbit, hon⟩⟩

/-- Settles O46: the second draw flips the same pixels as the first, and collides where the first turned pixels on. -/
theorem drawingTwiceRestoresTheScreen : Obligations.DrawingTwiceRestoresTheScreen := by
  intro x y n s t r _ _ hfault hexec hfb hi hbytes hx hy
  have hfits := (faultOf_drw_eq_none s x y n).1 hfault
  rw [exec_drw_draws hfits] at hexec
  cases hexec
  have hr : RedrawsFrom s x y n r := ⟨hfb, hi, hbytes, hx, hy⟩
  rw [← hr.collides_iff, ← drawing_hit_iff]
  refine ⟨_, exec_drw_draws (hr.fits hfits), hr.drawing_fb, (putDrawing_vf_eq_one _ _).2,
    (putDrawing_vf_eq_zero _ _).2, fun hzero => ?_⟩
  rw [putDrawing_vf_eq_zero, drawing_hit_iff] at hzero
  rw [putDrawing_vf_eq_one, drawing_hit_iff, hr.collides_iff, spriteTurnsOn_iff_flips hzero]

end Graphics

end Sys2Proof.Machine

/-! SUPPORT. The key skips, the key wait and the timers (44_input_timers.md R170 to R179): what each key event makes of
a wait, on the Step that executes FX0A and on a Step in WAIT. -/

namespace Sys2Proof.Machine

section KeyWait

variable {s : State} {x : Nibble}

theorem zextKey_toNat (k : Nibble) : (zextKey k).toNat = k.toNat :=
  BitVec.toNat_setWidth_of_le (by decide)

theorem State.reg_setReg_zextKey (s : State) (x k : Nibble) : ((s.setReg x (zextKey k)).reg x).toNat = k.toNat := by
  rw [State.reg_setReg_same, zextKey_toNat]

theorem regsExcept_setReg (s : State) (x : Nibble) (b : Byte) : RegsExcept [x] s (s.setReg x b) :=
  fun _ hr => State.reg_setReg_ne s b (mt List.mem_singleton.2 hr)

theorem exec_ldVxK_press {k : Nibble} (h : s.input.ev = .press k) :
    exec (.ldVxK x) s = .next (s.setReg x (zextKey k)) := by
  rw [exec, execLdVxK, State.waitForKey, h]

theorem exec_ldVxK_cancel (h : s.input.ev = .cancel) :
    exec (.ldVxK x) s = .next { s with status := .cancelled } := by
  rw [exec, execLdVxK, State.waitForKey, h]

theorem exec_ldVxK_none (h : s.input.ev = .none) :
    exec (.ldVxK x) s = .next { s with status := .wait x } := by
  rw [exec, execLdVxK, State.waitForKey, h]

/-- A Step with announced inputs executes the instruction it fetches on those inputs, from `PC = a + 2` (30_encoding.md
R63). -/
theorem stepWith_of_fetches {i : Instr} {t : State} {inp : StepInput} (hf : Fetches s i)
    (hexec : exec i (s.announce inp).advancePc = .next t) : s.stepWith inp = .next t.consumeInput := by
  obtain ⟨hs, w, hw, hd⟩ := fetches_announce (inp := inp).2 hf
  rw [State.stepWith, step_of_decoded hs hw hd, hexec, onNext]

/-- A Step in WAIT(x) with a press resumes with the key in `V[x]` (R176). -/
theorem stepWith_press_of_wait (hs : s.status = .wait x) (k : Nibble) (rnd : Byte) :
    s.stepWith ⟨.press k, rnd⟩ =
      .next { s.setReg x (zextKey k) with status := .run, draws := s.draws + 1 } :=
  step_of_wait (s := s.announce _) hs

theorem stepWith_cancel_of_wait (hs : s.status = .wait x) (rnd : Byte) :
    s.stepWith ⟨.cancel, rnd⟩ = .next { s with status := .cancelled, draws := s.draws + 1 } :=
  step_of_wait (s := s.announce _) hs

theorem stepWith_none_of_wait (hs : s.status = .wait x) (rnd : Byte) :
    s.stepWith ⟨.none, rnd⟩ = .next { s with draws := s.draws + 1 } :=
  step_of_wait (s := s.announce _) hs

end KeyWait

section InputAndTimers

/-- Settles O12: the three events of a Step in WAIT, and of the other operations only Reset writes the status. -/
theorem waitingStepFollowsItsEvent : Obligations.WaitingStepFollowsItsEvent := by
  intro s x hs
  refine ⟨fun k rnd => ?_, fun rnd => ?_, fun rnd => ?_, ?_, fun mask => ?_, fun image => ?_, _, rfl, rfl⟩
  · exact ⟨_, stepWith_press_of_wait hs k rnd, s.reg_setReg_zextKey x k, rfl, rfl, regsExcept_setReg s x _, rfl⟩
  · exact ⟨_, stepWith_cancel_of_wait hs rnd, rfl, rfl⟩
  · exact ⟨_, stepWith_none_of_wait hs rnd, congrArg Status.outcome hs, rfl⟩
  · exact ⟨s.tick, rfl, countDown_toNat s.dt, countDown_toNat s.st, hs⟩
  · exact ⟨s.setKeys mask, rfl, s.setKeys_getElem mask, hs⟩
  · have hkept : (s.load image).status = s.status :=
      (changesOnly_loadAt s progBase image).parts .status (by decide)
    exact ⟨s.load image, rfl, hkept.trans hs⟩

/-- Settles O48: below 16 each is a skip on the key's state, above 15 it faults. -/
theorem keySkipsFollowTheHeldState : Obligations.KeySkipsFollowTheHeldState := by
  intro x s
  refine ⟨encodedAs_encode (i := .skpVx x) fun _ => rfl, encodedAs_encode (i := .sknpVx x) fun _ => rfl,
    fun hkey => ?_, fun hnone => ⟨execSkpVx_noKey hnone, execSknpVx_noKey hnone⟩⟩
  have hlt : (s.reg x).toNat < 16 := Nat.lt_succ_of_le hkey
  exact ⟨exec_skip_pc (dif_pos hlt), exec_skip_pc (dif_pos hlt)⟩

/-- Settles O49: `exec_ldVxK_press` and its two siblings, used at `exec` and again inside the Step. -/
theorem keyWaitFollowsItsEvent : Obligations.KeyWaitFollowsItsEvent := by
  intro x s
  refine ⟨encodedAs_encode (i := .ldVxK x) fun _ => rfl, fun k hev => ?_, fun hev => ?_, fun hev => ?_,
    fun hf ev rnd => ?_⟩
  · exact exec_setReg_spec (·.toNat = k.toNat) (exec_ldVxK_press hev) (zextKey_toNat k)
  · exact ⟨_, exec_ldVxK_cancel hev, rfl, changesOnly_status s _⟩
  · exact ⟨_, exec_ldVxK_none hev, rfl, changesOnly_status s _⟩
  · cases ev with
    | press k =>
      have hrun : s.status = .run := hf.1
      exact ⟨_, stepWith_of_fetches hf (exec_ldVxK_press rfl), rfl, congrArg Status.outcome hrun,
        State.reg_setReg_zextKey ..⟩
    | cancel => exact ⟨_, stepWith_of_fetches hf (exec_ldVxK_cancel rfl), rfl, rfl, rfl⟩
    | none => exact ⟨_, stepWith_of_fetches hf (exec_ldVxK_none rfl), rfl, rfl, rfl⟩

/-- Settles O50: a plain write of the delay timer's value, and the updates of the two timers. -/
theorem timersAreReadAndWritten : Obligations.TimersAreReadAndWritten := by
  intro x s
  exact ⟨encodedAs_encode (i := .ldVxDt x) fun _ => rfl, encodedAs_encode (i := .ldDtVx x) fun _ => rfl,
    encodedAs_encode (i := .ldStVx x) fun _ => rfl, exec_setReg_spec (· = s.dt) rfl rfl,
    ⟨_, rfl, rfl, changesOnly_dt s _⟩, ⟨_, rfl, rfl, changesOnly_st s _⟩⟩

end InputAndTimers

end Sys2Proof.Machine

/-! SUPPORT. The two inputs of a Step (60_exceptions.md R221) and RND (45_random.md R190): an instruction that reads no
input commutes with announcing them, so a Step depends on an input only where its instruction or its wait reads it. -/

namespace Sys2Proof.Machine

section AnnouncedInputs

variable (s : State) (inp : StepInput)

theorem State.skipIf_announce (c : Bool) : (s.announce inp).skipIf c = (s.skipIf c).announce inp := by
  cases c <;> rfl

theorem State.push_announce (ra : Word) : (s.announce inp).push ra = (s.push ra).map (·.announce inp) := by
  by_cases h : s.sp.val < 16
  · simp [State.push, h, State.announce]
  · simp [State.push, h]

theorem State.pop_announce : (s.announce inp).pop = s.pop.map fun p => (p.1, p.2.announce inp) := by
  by_cases h : s.sp.val = 0
  · simp [State.pop, h]
  · simp [State.pop, h, State.announce]

theorem State.writeByte_announce (a : Nat) (b : Byte) :
    (s.announce inp).writeByte a b = (s.writeByte a b).announce inp := by
  unfold State.writeByte
  split <;> rfl

theorem State.writeBytes_announce (a : Nat) (bs : List Byte) :
    (s.announce inp).writeBytes a bs = (s.writeBytes a bs).announce inp := by
  induction bs generalizing s a with
  | nil => rfl
  | cons b bs ih => rw [State.writeBytes, State.writeByte_announce, ih, State.writeBytes]

theorem State.storeSpan_announce (bs : List Byte) :
    (s.announce inp).storeSpan bs = (s.storeSpan bs).map (·.announce inp) := by
  simp only [State.storeSpan, State.writeBytes_announce, State.announce_i]
  split <;> rfl

@[simp] theorem State.loadSpan_announce (n : Nat) : (s.announce inp).loadSpan n = s.loadSpan n := rfl

@[simp] theorem State.keyHeld_announce (k : Byte) : (s.announce inp).keyHeld k = s.keyHeld k := rfl

@[simp] theorem State.regsUpTo_announce (x : Nibble) : (s.announce inp).regsUpTo x = s.regsUpTo x := rfl

@[simp] theorem State.originRow_announce (y : Nibble) : (s.announce inp).originRow y = s.originRow y := rfl

/-- Only LD Vx, K and RND read an input: every other instruction does the same whether inputs are announced before or
after it. -/
theorem exec_announce {i : Instr} (hkey : ∀ x, i ≠ .ldVxK x) (hrnd : ∀ x kk, i ≠ .rndVxKk x kk) :
    exec i (s.announce inp) = onNext (·.announce inp) (exec i s) := by
  cases i with
  | ldVxK x => exact absurd rfl (hkey x)
  | rndVxKk x kk => exact absurd rfl (hrnd x kk)
  | seVxKk | sneVxKk | seVxVy | sneVxVy => exact congrArg Host.Outcome.next (s.skipIf_announce inp _)
  | skpVx x | sknpVx x =>
    simp only [exec, execSkpVx, execSknpVx, State.keyHeld_announce, State.reg_announce]
    cases s.keyHeld (s.reg x) with
    | none => rfl
    | some held => exact congrArg Host.Outcome.next (s.skipIf_announce inp _)
  | ret =>
    simp only [exec, execRet, State.pop_announce]
    cases s.pop <;> rfl
  | call nnn =>
    simp only [exec, execCall, State.push_announce, State.announce_pc]
    cases s.push s.pc <;> rfl
  | jpV0Nnn nnn =>
    simp only [exec, execJpV0Nnn, State.announce_cfg]
    cases s.cfg.bnnnMode <;> rfl
  | ldBVx x =>
    simp only [exec, execLdBVx, State.storeSpan_announce, State.reg_announce]
    cases s.storeSpan (decimalDigits (s.reg x)) <;> rfl
  | ldMemIVx x =>
    simp only [exec, execLdMemIVx, State.storeSpan_announce, State.regsUpTo_announce]
    cases s.storeSpan (s.regsUpTo x) <;> rfl
  | ldVxMemI x =>
    simp only [exec, execLdVxMemI, State.loadSpan_announce]
    cases s.loadSpan (x.toNat + 1) <;> rfl
  | drwVxVyN x y n =>
    simp only [exec, execDrwVxVyN, State.loadSpan_announce, State.originRow_announce]
    cases s.loadSpan (drawnRows n (s.originRow y)) <;> rfl
  | _ => rfl

end AnnouncedInputs

section InputIndependence

variable {s : State} {a b : StepInput}

/-- Once used up, two inputs that agree on what the instruction reads leave no difference. -/
theorem exec_consumeInput_congr {i : Instr} (hev : a.ev = b.ev ∨ ∀ x, i ≠ .ldVxK x)
    (hrnd : a.rnd = b.rnd ∨ ∀ x kk, i ≠ .rndVxKk x kk) :
    onNext State.consumeInput (exec i (s.announce a)) = onNext State.consumeInput (exec i (s.announce b)) := by
  by_cases hkey : ∃ x, i = .ldVxK x
  · obtain ⟨x, rfl⟩ := hkey
    have hsame : a.ev = b.ev := hev.resolve_right fun h => h x rfl
    simp only [exec, execLdVxK, State.waitForKey, State.input_announce, hsame]
    cases b.ev <;> rfl
  · by_cases hread : ∃ x kk, i = .rndVxKk x kk
    · obtain ⟨x, kk, rfl⟩ := hread
      have hsame : a.rnd = b.rnd := hrnd.resolve_right fun h => h x kk rfl
      simp only [exec, execRndVxKk, State.input_announce, hsame]
      rfl
    · simp only [not_exists] at hkey hread
      rw [exec_announce s a hkey hread, exec_announce s b hkey hread]
      cases exec i s <;> rfl

theorem resumeWait_consumeInput_congr (x : Nibble) (hev : a.ev = b.ev) :
    ((s.announce a).resumeWait x).consumeInput = ((s.announce b).resumeWait x).consumeInput := by
  simp only [State.resumeWait, State.input_announce, hev]
  cases b.ev <;> rfl

/-- A Step depends on its key event only in WAIT or on FX0A, and on its random byte only on CXKK (60_exceptions.md
R221). -/
theorem stepWith_congr (hev : a.ev = b.ev ∨ (∀ x, s.status ≠ .wait x) ∧ ∀ x, ¬ Fetches s (.ldVxK x))
    (hrnd : a.rnd = b.rnd ∨ ∀ x kk, ¬ Fetches s (.rndVxKk x kk)) : s.stepWith a = s.stepWith b := by
  unfold State.stepWith
  cases hs : s.status with
  | run =>
    cases hf : s.fetchWord with
    | none =>
      rw [step_of_no_fetch (s := s.announce a) hs hf, step_of_no_fetch (s := s.announce b) hs hf]
      rfl
    | some w =>
      cases hd : decode s.cfg.bnnnMode w with
      | error e =>
        rw [step_of_unknown (s := s.announce a) hs hf hd, step_of_unknown (s := s.announce b) hs hf hd]
        rfl
      | ok i =>
        have hi : Fetches s i := ⟨hs, w, hf, hd⟩
        rw [step_of_decoded (s := s.announce a) hs hf hd, step_of_decoded (s := s.announce b) hs hf hd]
        exact exec_consumeInput_congr (s := s.advancePc) (hev.imp_right fun h x hx => h.2 x (hx ▸ hi))
          (hrnd.imp_right fun h x kk hx => h x kk (hx ▸ hi))
  | wait x =>
    have hsame : a.ev = b.ev := hev.resolve_right fun h => h.1 x hs
    rw [step_of_wait (s := s.announce a) hs, step_of_wait (s := s.announce b) hs,
      resumeWait_consumeInput_congr x hsame]
  | cancelled | faulted =>
    have hhalted : s.status.halted = true := by rw [hs]; rfl
    rw [step_of_halted (s := s.announce a) hhalted, step_of_halted (s := s.announce b) hhalted]
    rfl

end InputIndependence

section Random

/-- Settles O38: a plain write of the masked byte, used at `exec` and inside the Step; the independence is
`stepWith_congr` for two inputs with one key event. -/
theorem randomByteIsMasked : Obligations.RandomByteIsMasked := by
  refine ⟨fun x kk s => ?_, fun x kk s ev rnd hf => ?_, fun s hf ev rnd rnd' => ?_⟩
  · exact ⟨encodedAs_encode (i := .rndVxKk x kk) fun _ => rfl,
      exec_setReg_spec (fun r => ∀ k, r.getLsbD k = (s.input.rnd.getLsbD k && kk.getLsbD k)) rfl
        fun _ => BitVec.getLsbD_and⟩
  · have hrun : s.status = .run := hf.1
    exact ⟨_, stepWith_of_fetches hf rfl, State.reg_setReg_same .., congrArg Status.outcome hrun⟩
  · exact stepWith_congr (.inl rfl) (.inr hf)

end Random

end Sys2Proof.Machine

/-! SUPPORT. The screen clear (46_screen_clear.md R195). -/

namespace Sys2Proof.Machine

section ScreenClear

/-- CLS puts the cleared framebuffer in place of the screen. -/
theorem exec_cls (s : State) : exec .cls s = .next { s with fb := clearedFramebuffer } := rfl

/-- Settles O47: `exec_cls` writes the framebuffer alone, registers and so VF kept, and each of its pixels is off by
`pixel_cleared`. -/
theorem clearTurnsEveryPixelOff : Obligations.ClearTurnsEveryPixelOff := by
  refine ⟨encodedAs_encode (i := .cls) fun _ => rfl, fun s => ⟨_, exec_cls s, fun py px _ _ => ?_, ?_⟩⟩
  · exact pixel_cleared py px
  · exact changesOnly_fb s clearedFramebuffer

end ScreenClear

end Sys2Proof.Machine

/-! SUPPORT. The host operations (60_exceptions.md R215, R220 to R228): every one completes, and what any schedule, a
run of Ticks and a run of Steps in a halted status leave. -/

namespace Sys2Proof.Machine

section Schedules

theorem runHost_cons {op : HostOp} {s t : State} (ops : List HostOp) (h : op.perform s = .next t) :
    runHost (op :: ops) s = runHost ops t := by
  rw [runHost, h]

/-- Every Step answers a next state (60_exceptions.md R200). -/
theorem step_answers_next (s : State) : ∃ t, step s = .next t := by
  cases hs : s.status with
  | run =>
    cases hf : s.fetchWord with
    | none => exact ⟨_, step_of_no_fetch hs hf⟩
    | some w =>
      cases hd : decode s.cfg.bnnnMode w with
      | error e => exact ⟨_, step_of_unknown hs hf hd⟩
      | ok i =>
        obtain ⟨u, hu⟩ := exec_answers_next i s.advancePc
        exact ⟨u.consumeInput, by rw [step_of_decoded hs hf hd, hu, onNext]⟩
  | wait x => exact ⟨_, step_of_wait hs⟩
  | cancelled => exact ⟨_, step_of_cancelled hs⟩
  | faulted c a w n => exact ⟨_, step_of_faulted hs⟩

theorem State.Inv.load {s : State} (h : s.Inv) (image : List Byte) : (s.load image).Inv := by
  have hwf := State.wf_loadAt image progBase h.mem_wf
  obtain ⟨m, hm⟩ := State.loadAt_frame image s progBase
  rw [State.load, hm]
  rw [hm] at hwf
  exact ⟨hwf, h.returns, h.pc_le⟩

/-- Every host operation completes and keeps the invariant (60_exceptions.md R226). -/
theorem HostOp.perform_completes (op : HostOp) (s : State) : ∃ t, op.perform s = .next t ∧ (s.Inv → t.Inv) := by
  cases op with
  | reset => exact ⟨s.hostReset, rfl, fun _ => (State.resetWith_inv s.cfg).of_same rfl rfl rfl rfl⟩
  | load image => exact ⟨s.load image, rfl, fun hs => hs.load image⟩
  | step inp =>
    obtain ⟨t, ht⟩ := step_answers_next (s.announce inp)
    have hannounce (hs : s.Inv) : (s.announce inp).Inv := hs.of_same rfl rfl rfl rfl
    exact ⟨t, ht, fun hs => step_keeps_inv (hannounce hs) ht⟩
  | setKeys mask =>
    exact ⟨s.setKeys mask, rfl, fun hs =>
      hs.of_same (s.setKeys_mem mask) (s.setKeys_stack mask) (s.setKeys_pc mask) (s.setKeys_cfg mask)⟩
  | tick => exact ⟨s.tick, rfl, fun hs => hs.of_same s.tick_mem s.tick_stack s.tick_pc s.tick_cfg⟩
  | readFramebuffer | readStatus => exact ⟨s, rfl, id⟩

/-- Settles O20, by induction on the schedule, one operation at a time by `HostOp.perform_completes`. -/
theorem everyScheduleCompletesWithinBounds : Obligations.EveryScheduleCompletesWithinBounds := by
  intro ops
  induction ops with
  | nil => exact fun s => ⟨s, rfl, id⟩
  | cons op ops ih =>
    intro s
    obtain ⟨t, ht, htinv⟩ := op.perform_completes s
    obtain ⟨u, hu, huinv⟩ := ih t
    exact ⟨u, (runHost_cons ops ht).trans hu, huinv ∘ htinv⟩

end Schedules

section HaltedRuns

/-- In a halted status a Step with announced inputs only counts (60_exceptions.md R212). -/
theorem stepWith_of_halted {s : State} (h : s.status.halted = true) (inp : StepInput) :
    s.stepWith inp = .next { s with draws := s.draws + 1 } :=
  step_of_halted (s := s.announce inp) h

/-- Settles O11, by induction on the inputs: each Step moves `draws` on by one and leaves the status halted. -/
theorem haltedRunsStayHalted : Obligations.HaltedRunsStayHalted := by
  intro s inps
  induction inps generalizing s with
  | nil => exact fun _ => rfl
  | cons inp inps ih =>
    intro h
    have hrest := ih { s with draws := s.draws + 1 } h
    rw [List.map_cons, runHost_cons (op := .step inp) _ (stepWith_of_halted h inp), hrest, List.length_cons,
      Nat.add_right_comm, Nat.add_assoc]

/-- Settles O10: the Step only uses up its inputs. -/
theorem haltedStepChangesNothing : Obligations.HaltedStepChangesNothing :=
  fun _ h => ⟨_, step_of_halted h, rfl, rfl⟩

end HaltedRuns

section Outcomes

theorem Status.outcome_eq_ok (st : Status) : st.outcome = .ok ↔ st = .run := by
  cases st <;> simp [Status.outcome]

theorem Status.outcome_eq_waiting (st : Status) : st.outcome = .waiting ↔ ∃ x, st = .wait x := by
  cases st <;> simp [Status.outcome]

theorem Status.outcome_eq_cancelled (st : Status) : st.outcome = .cancelled ↔ st = .cancelled := by
  cases st <;> simp [Status.outcome]

theorem Status.outcome_eq_fault (st : Status) (c : FaultCause) :
    st.outcome = .fault c ↔ ∃ a w n, st = .faulted c a w n := by
  cases st <;> simp [Status.outcome]

/-- Settles O9: the Step answers, and the table of R200 pairs outcomes with statuses one to one (log 13). -/
theorem everyStepReportsOneOutcome : Obligations.EveryStepReportsOneOutcome := by
  intro s
  obtain ⟨t, ht⟩ := step_answers_next s
  exact ⟨t, ht, t.status.outcome_eq_ok, t.status.outcome_eq_waiting, t.status.outcome_eq_cancelled,
    t.status.outcome_eq_fault⟩

/-- Settles O14: `stepWith_congr` for two inputs with one random byte, and for two with one key event. -/
theorem inputsMatterOnlyWhereRead : Obligations.InputsMatterOnlyWhereRead :=
  fun _ => ⟨fun hwait hkey _ _ _ => stepWith_congr (.inr ⟨hwait, hkey⟩) (.inl rfl),
    fun hrnd _ _ _ => stepWith_congr (.inl rfl) (.inr hrnd)⟩

end Outcomes

section KeysTimersAndReads

/-- Settles O54: each key is its bit of the mask, and no other field is written. -/
theorem setKeysOverwritesEveryKey : Obligations.SetKeysOverwritesEveryKey :=
  fun mask s => ⟨s.setKeys mask, rfl, s.setKeys_getElem mask, changesOnly_keys s _⟩

theorem changesOnly_tick (s : State) : ChangesOnly [.dt, .st] s s.tick := by
  have hdt : ChangesOnly [.dt, .st] s { s with dt := countDown s.dt } := (changesOnly_dt s _).mono (by simp)
  exact hdt.trans ((changesOnly_st _ (countDown s.st)).mono (by simp))

/-- Settles O55, by induction on the number of Ticks: a Tick takes one from each timer by `countDown_toNat`. -/
theorem ticksCountBothTimersDown : Obligations.TicksCountBothTimersDown := by
  intro k
  induction k with
  | zero => exact fun s => ⟨s, rfl, by simp, by simp, ChangesOnly.refl _ s⟩
  | succ k ih =>
    intro s
    obtain ⟨t, ht, hdt, hst, hframe⟩ := ih s.tick
    rw [State.tick_dt, countDown_toNat] at hdt
    rw [State.tick_st, countDown_toNat] at hst
    exact ⟨t, (runHost_cons _ rfl).trans ht, by omega, by omega, (changesOnly_tick s).trans hframe⟩

/-- Settles O56: a read performs no change, and its reply is the field it reads. -/
theorem readsAnswerAndChangeNothing : Obligations.ReadsAnswerAndChangeNothing :=
  fun _ => ⟨rfl, rfl, rfl, rfl⟩

end KeysTimersAndReads

end Sys2Proof.Machine

/-! SUPPORT. The faults (60_exceptions.md R201 to R209): each meaning against its row of the fault table, and from that
the state a faulting Step leaves. -/

namespace Sys2Proof.Machine

section ExecFaults

/-- What executing `i` does where the fault table answers `row`: it raises that fault, or it leaves the status alone
but for a key wait (44_input_timers.md R172). -/
def ExecFollows (i : Instr) (s : State) : Option (FaultCause × Word) → Prop
  | some (c, info) => exec i s = .next (s.takeFault c (s.pc - 2) (encode i) info)
  | none => ∃ t, exec i s = .next t ∧ (t.status = s.status ∨ t.status = .cancelled ∨ ∃ x, t.status = .wait x)

theorem execFollows_ite {i : Instr} {s : State} {p : Prop} [Decidable p] {c : FaultCause} {info : Word}
    (hfault : p → exec i s = .next (s.takeFault c (s.pc - 2) (encode i) info))
    (hnone : ¬ p → ∃ t, exec i s = .next t ∧ t.status = s.status) :
    ExecFollows i s (if p then some (c, info) else none) := by
  split
  · next hp => exact hfault hp
  · next hp =>
    obtain ⟨t, ht, hstatus⟩ := hnone hp
    exact ⟨t, ht, .inl hstatus⟩

theorem State.writeBytes_status (s : State) (a : Nat) (bs : List Byte) : (s.writeBytes a bs).status = s.status :=
  (changesOnly_writeBytes s a bs).parts .status (by simp)

/-- Every meaning follows its row of the fault table (60_exceptions.md R202). -/
theorem exec_follows_faultOf (i : Instr) (s : State) : ExecFollows i s (faultOf i s) := by
  cases i with
  | ret =>
    have hsp := s.sp.isLt
    exact execFollows_ite execRet_empty fun h => ⟨_, execRet_pops h (by omega), rfl⟩
  | call nnn =>
    have hsp := s.sp.isLt
    exact execFollows_ite (execCall_full nnn) fun h => ⟨_, execCall_pushes nnn (by omega), rfl⟩
  | jpV0Nnn nnn =>
    refine execFollows_ite (fun h => ?_) fun h => ?_
    · rw [exec, execJpV0Nnn, h, raise_eq]
    · have hmode : s.cfg.bnnnMode = .jumpV0 := by
        cases hm : s.cfg.bnnnMode with
        | unknown => exact absurd hm h
        | jumpV0 => rfl
      exact ⟨_, execJpV0Nnn_jumps nnn hmode, rfl⟩
  | skpVx x =>
    exact execFollows_ite execSkpVx_noKey fun h => ⟨_, execSkpVx_key (by omega), State.skipIf_status ..⟩
  | sknpVx x =>
    exact execFollows_ite execSknpVx_noKey fun h => ⟨_, execSknpVx_key (by omega), State.skipIf_status ..⟩
  | ldBVx x =>
    exact execFollows_ite (execLdBVx_faults x) fun h =>
      ⟨_, execLdBVx_stores x (Nat.le_of_not_gt h), State.writeBytes_status ..⟩
  | ldMemIVx x =>
    exact execFollows_ite execLdMemIVx_faults fun h =>
      ⟨_, execLdMemIVx_stores (Nat.le_of_not_gt h), State.writeBytes_status ..⟩
  | ldVxMemI x =>
    exact execFollows_ite execLdVxMemI_faults fun h => ⟨_, execLdVxMemI_loads (Nat.le_of_not_gt h), rfl⟩
  | drwVxVyN x y n =>
    have hfits := spriteFits_iff s y n
    refine execFollows_ite (fun h => execDrwVxVyN_faults (mt hfits.1 ?_))
      fun h => ⟨_, exec_drw_draws (hfits.2 ?_), rfl⟩
    · omega
    · omega
  | seVxKk | sneVxKk | seVxVy | sneVxVy => exact ⟨_, rfl, .inl (State.skipIf_status ..)⟩
  | ldVxK x =>
    cases hev : s.input.ev with
    | press k => exact ⟨_, exec_ldVxK_press hev, .inl rfl⟩
    | cancel => exact ⟨_, exec_ldVxK_cancel hev, .inr (.inl rfl)⟩
    | none => exact ⟨_, exec_ldVxK_none hev, .inr (.inr ⟨x, rfl⟩)⟩
  | _ => exact ⟨_, rfl, .inl rfl⟩

theorem exec_of_fault {i : Instr} {s : State} {c : FaultCause} {info : Word} (h : faultOf i s = some (c, info)) :
    exec i s = .next (s.takeFault c (s.pc - 2) (encode i) info) := by
  have hrow := exec_follows_faultOf i s
  rwa [h] at hrow

theorem exec_of_no_fault {i : Instr} {s : State} (h : faultOf i s = none) :
    ∃ t, exec i s = .next t ∧ (t.status = s.status ∨ t.status = .cancelled ∨ ∃ x, t.status = .wait x) := by
  have hrow := exec_follows_faultOf i s
  rwa [h] at hrow

/-- FETCH_BOUNDS is no instruction's own fault (60_exceptions.md R207). -/
theorem faultOf_ne_fetchBounds {i : Instr} {s : State} {c : FaultCause} {info : Word}
    (h : faultOf i s = some (c, info)) : c ≠ .fetchBounds := by
  rintro rfl
  cases i <;> simp [faultOf] at h

end ExecFaults

section StepFaults

variable {s : State}

/-- The state a fault leaves: its record in the status, and `PC` at `a + 2`, or at `a` where the fetch faulted
(60_exceptions.md R201). -/
def State.afterFault (s : State) (c : FaultCause) (w info : Word) : State :=
  { s with status := .faulted c s.pc w info, pc := if c = .fetchBounds then s.pc else s.pc + 2 }

/-- A Step that meets a row of the fault table takes that fault, with the fetched word, or 0 where there is none. -/
theorem step_of_fault {c : FaultCause} {info : Word} (hs : s.status = .run) (h : stepFaultOf s = some (c, info)) :
    ∃ w, (c = .fetchBounds → w = 0) ∧ (c ≠ .fetchBounds → s.fetchWord = some w) ∧
      step s = .next (s.afterFault c w info).consumeInput := by
  unfold stepFaultOf at h
  split at h
  · next hf =>
    cases h
    exact ⟨0, fun _ => rfl, absurd rfl, step_of_no_fetch hs hf⟩
  · next w hf =>
    split at h
    · next e hd =>
      cases h
      exact ⟨w, by simp, fun _ => hf, step_of_unknown hs hf hd⟩
    · next i hd =>
      have hne := faultOf_ne_fetchBounds h
      have haddr : s.advancePc.pc - 2 = s.pc := BitVec.add_sub_cancel s.pc 2
      obtain ⟨hword, -, -⟩ := decode_ok hd
      refine ⟨w, fun hc => absurd hc hne, fun _ => hf, ?_⟩
      rw [step_of_decoded hs hf hd, exec_of_fault h, haddr, hword, onNext, State.afterFault, if_neg hne]
      rfl

/-- A Step that meets no row of the fault table does not fault (60_exceptions.md R202). -/
theorem step_of_no_fault (hs : s.status = .run) (h : stepFaultOf s = none) :
    ∃ t, step s = .next t ∧ (t.status = .run ∨ t.status = .cancelled ∨ ∃ x, t.status = .wait x) := by
  unfold stepFaultOf at h
  split at h
  · cases h
  · next w hf =>
    split at h
    · cases h
    · next i hd =>
      obtain ⟨u, hu, hstatus⟩ := exec_of_no_fault h
      rw [State.advancePc_status, hs] at hstatus
      exact ⟨u.consumeInput, by rw [step_of_decoded hs hf hd, hu, onNext], hstatus⟩

end StepFaults

section FaultClaims

/-- Settles O16: the two cases of the table, by `step_of_fault` and `step_of_no_fault`. -/
theorem faultsAreThoseOfTheTable : Obligations.FaultsAreThoseOfTheTable := by
  refine ⟨fun s hs => ?_, rfl, rfl, rfl, rfl, rfl, rfl⟩
  cases h : stepFaultOf s with
  | none => exact step_of_no_fault hs h
  | some row =>
    obtain ⟨w, -, -, hstep⟩ := step_of_fault hs h
    exact ⟨_, hstep, w, rfl⟩

/-- Settles O15: a Step that ends in FAULTED met a row of the fault table, so it left `State.afterFault`, and a Step in
FAULTED keeps the status. -/
theorem faultsArePreciseAndStay : Obligations.FaultsArePreciseAndStay := by
  intro s t c a w info hs hstep ht
  cases h : stepFaultOf s with
  | none =>
    obtain ⟨u, hu, hstatus⟩ := step_of_no_fault hs h
    cases hu.symm.trans hstep
    simp [ht] at hstatus
  | some row =>
    obtain ⟨w', hzero, hword, hfault⟩ := step_of_fault hs h
    cases hfault.symm.trans hstep
    cases ht
    refine ⟨rfl, hzero, hword, rfl, rfl, fun u hu => ?_⟩
    rw [step_of_faulted rfl] at hu
    cases hu
    rfl

end FaultClaims

end Sys2Proof.Machine

/-! SUPPORT. Reset (10_state.md R33, 70_reset_and_hazards.md R240). -/

namespace Sys2Proof.Machine

section Reset

/-- After Reset memory lists nothing, so every byte reads as its reset contents under the state's own parameters. -/
theorem State.readByte_hostReset (s : State) (a : Nat) : s.hostReset.readByte a = resetByte s.cfg a :=
  Memory.read_nil s.cfg a

theorem isResetState_hostReset (s : State) : isResetState s.hostReset where
  regs := ⟨fun r => Vector.getElem_replicate r.isLt, rfl, rfl, rfl⟩
  pc := rfl
  stack := ⟨rfl, fun _ h => Vector.getElem_replicate h⟩
  fb py px _ _ := pixel_cleared py px
  keys _ h := Vector.getElem_replicate h
  font _ h := (s.readByte_hostReset _).trans (resetByte_font s.cfg h)
  zeros a h := (s.readByte_hostReset a).trans (resetByte_other s.cfg h)
  status := rfl

/-- `State.reset` is what Reset makes of itself: its input fields are the initial ones already. -/
theorem State.hostReset_reset : State.reset.hostReset = State.reset := rfl

/-- Settles O51: every state Reset answers is a reset state, and `State.reset` is one of them. -/
theorem resetGivesTheListedState : Obligations.ResetGivesTheListedState :=
  ⟨fun s => ⟨s.hostReset, rfl, rfl, isResetState_hostReset s⟩,
    State.hostReset_reset ▸ isResetState_hostReset State.reset⟩

end Reset

end Sys2Proof.Machine
